-- ==== Sys2Proof/Word.lean ====
section
/-! DEFINITION. The bit-vector types of the VARINT64 codec core (R1, R3, R50: 00_scope.md, 30_encoding.md). -/

namespace Sys2Proof

/-- A 64-bit value, register or port (R1). Signed values use the same word in two's complement (R2). -/
abbrev Word := BitVec 64

/-- A byte of a stream (R3). -/
abbrev Byte := BitVec 8

/-- The 3-bit opcode field of a command (R50). -/
abbrev Opcode := BitVec 3

/-- A whole 67-bit command word `{op, arg}` (R50). -/
abbrev Cmd := BitVec 67

end Sys2Proof
end

