-- ==== Sys2Proof/Syntax.lean ====
section
/-! DEFINITION. The eight commands (R52, 30_encoding.md; one constructor per row of opcode_table.json) and the abstract
syntax of the assembler (R65, R66). -/

namespace Sys2Proof

/-- A command. `DEC` and `SDEC` have no operand: their argument is ignored, "no bit of it is sampled" (R54; log 10). -/
inductive Instr where
  /-- `LEN u`, op 0 (R88): byte count of the unsigned value `u`. -/
  | len (u : Word)
  /-- `ENC u`, op 1 (R96): write the encoding of the unsigned value `u` to the sink. -/
  | enc (u : Word)
  /-- `DEC`, op 2 (R111): read one unsigned value from the source. -/
  | dec
  /-- `ZZE s`, op 3 (R130): forward zigzag transform of the signed value `s`. -/
  | zze (s : Word)
  /-- `SLEN s`, op 4 (R132): byte count of the signed value `s`. -/
  | slen (s : Word)
  /-- `SENC s`, op 5 (R133): write the encoding of the signed value `s` to the sink. -/
  | senc (s : Word)
  /-- `SDEC`, op 6 (R134): read one signed value from the source. -/
  | sdec
  /-- `ZZD u`, op 7 (R131): inverse zigzag transform of the unsigned value `u`. -/
  | zzd (u : Word)
deriving DecidableEq, Repr

/-- The unsigned operand forms of the assembler (R65): decimal, hexadecimal, `2^k`, `2^k-1`. -/
inductive UOperand where
  | dec (n : Nat)
  | hex (n : Nat)
  | pow (k : Nat)
  | powMinusOne (k : Nat)
deriving DecidableEq, Repr

/-- The signed operand forms of the assembler (R65): decimal, or a hexadecimal 64-bit pattern. -/
inductive SOperand where
  | dec (z : Int)
  | hex (n : Nat)
deriving DecidableEq, Repr

/-- One line of assembler text after parsing (R65). -/
inductive AsmLine where
  | len (u : UOperand)
  | enc (u : UOperand)
  | dec
  | zze (s : SOperand)
  | slen (s : SOperand)
  | senc (s : SOperand)
  | sdec
  | zzd (u : UOperand)
deriving DecidableEq, Repr

end Sys2Proof
end

