-- ==== Sys2Proof/WellFormed.lean ====
section
/-! DEFINITION. Which terms are legal. A command has no illegal operand (R53, R55); the range checks of this hardware are
the assembler's (R65). -/

namespace Sys2Proof

/-- The signed range `[-2^63, 2^63 - 1]` (R1). -/
def inSignedRange (z : Int) : Bool := decide (-(2 ^ 63) ≤ z ∧ z < 2 ^ 63)

/-- An unsigned operand names a value in `[0, 2^64 - 1]` (R65); so `k` goes to 63 in `2^k` and to 64 in `2^k-1` (log 15). -/
def UOperand.wf : UOperand → Bool
  | .dec n => decide (n < 2 ^ 64)
  | .hex n => decide (n < 2 ^ 64)
  | .pow k => decide (k < 64)
  | .powMinusOne k => decide (k ≤ 64)

/-- A signed operand names a value in `[-2^63, 2^63 - 1]` or a 64-bit pattern (R65). -/
def SOperand.wf : SOperand → Bool
  | .dec z => inSignedRange z
  | .hex n => decide (n < 2 ^ 64)

/-- A line is well-formed when its operand is in range (R65). -/
def AsmLine.wf : AsmLine → Bool
  | .len u => u.wf
  | .enc u => u.wf
  | .dec => true
  | .zze s => s.wf
  | .slen s => s.wf
  | .senc s => s.wf
  | .sdec => true
  | .zzd u => u.wf

/-- Every command is well-formed: "Every 64-bit pattern is a legal argument of every command that reads it" (R53), and no
command encoding is illegal (R55). -/
def Instr.wf : Instr → Bool
  | .len _ => true
  | .enc _ => true
  | .dec => true
  | .zze _ => true
  | .slen _ => true
  | .senc _ => true
  | .sdec => true
  | .zzd _ => true

end Sys2Proof
end

