-- ==== Sys2Proof/Decode.lean ====
section
/-! DEFINITION. The command word (R50 to R55, 30_encoding.md): its two fields, the decoder, the encoder. -/

namespace Sys2Proof

/-- `CMD[66:64]`, the opcode (R50). -/
def cmdOp (w : Cmd) : Opcode := w.extractLsb' 64 3

/-- `CMD[63:0]`, the argument (R50). -/
def cmdArg (w : Cmd) : Word := w.extractLsb' 0 64

/-- `{op, arg}` (R50). -/
def mkCmd (op : Opcode) (arg : Word) : Cmd := op ++ arg

/-- The opcode map (R52). All eight values are assigned, so decoding is total and refuses nothing (R55). -/
def decodeFields (op : Opcode) (arg : Word) : Instr :=
  match op.toFin with
  | 0 => .len arg
  | 1 => .enc arg
  | 2 => .dec
  | 3 => .zze arg
  | 4 => .slen arg
  | 5 => .senc arg
  | 6 => .sdec
  | 7 => .zzd arg

/-- The command a 67-bit word selects (R52, R55). -/
def decode (w : Cmd) : Instr := decodeFields (cmdOp w) (cmdArg w)

/-- Why a number is no command word. The only reason: it does not fit the 67 bits of R50 (log 16). -/
inductive DecodeError where
  | widerThanCommandWord
deriving DecidableEq, Repr

/-- Decode a number; total, and refusing by name what is no 67-bit word (R50; log 16). -/
def decodeNat (n : Nat) : Except DecodeError Instr :=
  if n < 2 ^ 67 then .ok (decode (BitVec.ofNat 67 n)) else .error .widerThanCommandWord

/-- The instruction the decoder reads from the low `nbits` bits of `w`, numbered as opcode_table.json numbers them. The
command port is parallel (R50), so no byte order enters. -/
def decodeTableWord (nbits w : Nat) : Option Instr :=
  match decodeNat (w % 2 ^ nbits) with
  | .ok i => some i
  | .error _ => none

/-- The opcode of a command (R52). -/
def Instr.opcode : Instr → Opcode
  | .len _ => 0
  | .enc _ => 1
  | .dec => 2
  | .zze _ => 3
  | .slen _ => 4
  | .senc _ => 5
  | .sdec => 6
  | .zzd _ => 7

/-- The argument field of a command; the assembler writes 0 where it is ignored (R54, R65). -/
def Instr.arg : Instr → Word
  | .len u => u
  | .enc u => u
  | .dec => 0
  | .zze s => s
  | .slen s => s
  | .senc s => s
  | .sdec => 0
  | .zzd u => u

/-- The command word of a command (R50, R52, R54, R65). -/
def encode (i : Instr) : Cmd := mkCmd i.opcode i.arg

end Sys2Proof
end

