-- ==== Sys2Proof/Config.lean ====
section
/-! DEFINITION. What is fixed for the machine, and the one value the spec leaves open. -/

namespace Sys2Proof.Config

/-- `W`, the value width; not a parameter (R1). -/
def valueWidth : Nat := 64

/-- `G`, payload bits per byte (R3). -/
def groupBits : Nat := 7

/-- `MAXLEN`, the longest canonical encoding in bytes (R4). -/
def maxLen : Nat := 10

/-- The value `RES` takes at a failed completion, for the `n`-th failure (R166; U1 of 93_implementation_defined.md: "any
value: a fresh unconstrained 64-bit draw at each failed completion"). It has no body, so nothing can be proved of it.
DESIGN CHOICE: the draw is indexed by the model's counter `draws` (log 3). -/
opaque freeRes : Nat → Word

end Sys2Proof.Config
end

