-- ==== Sys2Proof/Machine/Operands.lean ====
section
/-! DEFINITION. How the 64-bit argument is read (R2, R53), the group and payload fields of bytes (R3, R34, R57), the zigzag
transform (R125 to R128, 44_signed.md) and the count of significant bits (00_scope.md section 5). -/

namespace Sys2Proof.Machine

/-- `signed(r)`: the signed integer a word stands for (R2). -/
def signed (r : Word) : Int := if r.toNat < 2 ^ 63 then r.toNat else (r.toNat : Int) - 2 ^ 64

/-- `twos(n)`: the word that stands for a signed integer (R2). -/
def twos (n : Int) : Word := BitVec.ofInt 64 n

/-- `payload`, `b[6:0]` of a byte, zero-extended (R3, R112). -/
def payload (b : Byte) : Word := (b &&& 0x7F#8).setWidth 64

/-- The continuation bit, `b[7]` (R3). -/
def contBit (b : Byte) : Bool := b.getLsbD 7

/-- `{c, r[6:0]}`: the byte formed from the low group of `r` (R34, R97). -/
def groupByte (c : Bool) (r : Word) : Byte := (if c then 0x80#8 else 0x00#8) ||| (r.setWidth 8 &&& 0x7F#8)

/-- Leading zeros among the low `n` bits of `v`, from bit `n - 1` down. -/
def clzFrom (v : Word) : Nat → Nat
  | 0 => 0
  | n + 1 => if v.getLsbD n then 0 else clzFrom v n + 1

/-- `clz64(v)` (00_scope.md section 5). -/
def clz64 (v : Word) : Nat := clzFrom v 64

/-- `sb(v) = 64 - clz64(v)`, the significant bits (00_scope.md section 5). -/
def sb (v : Word) : Nat := 64 - clz64 v

/-- `ceil(a / b)` on naturals (00_scope.md section 5). -/
def ceilDiv (a b : Nat) : Nat := (a + (b - 1)) / b

/-- `unsign`, the hardware form: `(a << 1) ^ (a >>s 63)` (R126). -/
def unsign (a : Word) : Word := (a <<< 1) ^^^ a.sshiftRight 63

/-- `sign`, the hardware form: `(u >> 1) ^ (0 - (u & 1))` (R128). -/
def sign (u : Word) : Word := (u >>> 1) ^^^ (0 - (u &&& 1))

/-- `unsign(s)` over the integers (R125). -/
def unsignInt (s : Int) : Int := if 0 ≤ s then 2 * s else -2 * s - 1

/-- `sign(u)` over the integers (R127). -/
def signInt (u : Nat) : Int := if u % 2 = 0 then ((u / 2 : Nat) : Int) else -(((u + 1) / 2 : Nat) : Int)

end Sys2Proof.Machine
end

