-- ==== Sys2Proof/Machine/State.lean ====
section
/-! DEFINITION. The state (10_state.md): the core's registers, the streams and the host's index that the spec gives to the
environment, and what the environment drives at the coming clock edges. Plain data throughout. -/

namespace Sys2Proof.Machine

/-- What the source does at one edge; it matters only while the core requests a byte (R28, R32, R194). The source keeps its
duties by construction: the byte it hands over is the one at its read cursor (log 5). -/
inductive SrcDrive where
  /-- `src_valid = 0`: the core waits (R28). -/
  | stall
  /-- The source serves: `Byte` of the byte at its cursor, or `Empty` when it holds none (R32). -/
  | serve
  /-- `Empty` even if it holds bytes; R194 says only that it should not. -/
  | empty
  /-- `XErr(code)` (R28, R32). -/
  | fail (code : Byte)
  /-- The breach `src_kind = 3` (U6), with some data on the lines. -/
  | reserved (data : Byte)
deriving DecidableEq, Repr

/-- Everything the environment does at one clock edge (R10, R11, R25, R27, R28). -/
structure EdgeIn where
  /-- `rst` (R10). -/
  rst : Bool := false
  /-- `cmd_valid` (R25). -/
  cmdValid : Bool := false
  /-- `cmd_op` (R25). -/
  cmdOp : Opcode := 0
  /-- `cmd_arg` (R25). -/
  cmdArg : Word := 0
  /-- `snk_ready` (R27). -/
  snkReady : Bool := false
  /-- `snk_err` (R27). -/
  snkErr : Bool := false
  /-- `snk_code` (R27). -/
  snkCode : Byte := 0
  /-- What the sink appended although it answered `XErr` (R27, U4; log 8). -/
  snkKept : List Byte := []
  /-- The source's side of its port (R28). -/
  srcDrive : SrcDrive := .stall
  /-- Bytes a producer added to the source since the last edge (R194; log 14). -/
  srcArrive : List Byte := []
  /-- A sink content the host puts in place while the core is idle (R192; log 14). -/
  hostSnk : Option (List Byte) := none
  /-- A source content the host puts in place while the core is idle (R192; log 14). -/
  hostSrc : Option (List Byte) := none
deriving DecidableEq, Repr

/-- An edge at which every input signal is 0: no reset, no command, no answer. -/
def EdgeIn.quiet : EdgeIn := {}

/-- One sampled outcome `(RES, ST, XCODE)` (R81). `res` is `none` when `ST ≠ 0`: that `RES` is unspecified (R166, U1). -/
structure HostOutcome where
  res   : Option Word
  st    : BitVec 2
  xcode : Byte
deriving DecidableEq, Repr

/-- What stops the machine. -/
inductive Fault where
  /-- Raised by a decoder step: the source drove `src_kind = 3`, which it must never do (R28, R194, U6). Safe. -/
  | srcKindReserved
  /-- Raised by a busy step whose `OP` is a pure command: unreachable, no rule gives it a step (R78). Safe. -/
  | busyWithPureOp
deriving DecidableEq, Repr

/-- What has no meaning in the model. -/
inductive Refusal where
  /-- Raised by `exec` for a command without a meaning; no arm is left so. Safe. -/
  | notModelled (mnemonic : String)
deriving DecidableEq, Repr

/-- The whole state. -/
structure State where
  /-- `BUSY` (R14). -/
  busy : Bool
  /-- `OP` (R15). -/
  op : Opcode
  /-- `REM` (R16). -/
  rem : Word
  /-- `CNT` (R17). -/
  cnt : BitVec 4
  /-- `ACC` (R18). -/
  acc : Word
  /-- `FAC` (R19). -/
  fac : Word
  /-- `RES` (R20). -/
  res : Word
  /-- `ST` (R21). -/
  st : BitVec 2
  /-- `XCODE` (R22). -/
  xcode : Byte
  /-- The sink's content, oldest byte first (R24, R31). -/
  snk : List Byte
  /-- The source's content: the bytes not yet consumed, next byte first (R24, R32). -/
  src : List Byte
  /-- The source's read cursor: how many bytes it has handed over (R24, R118). -/
  srcCur : Nat
  /-- The host's command index (R13, R71). -/
  pc : Nat
  /-- The outcomes the host has sampled, oldest first (R81; log 11). -/
  outcomes : List HostOutcome
  /-- What the environment does at the coming edges, next edge first; quiet when the list ends (log 1). -/
  inputs : List EdgeIn
  /-- The model's own: how many free values of `RES` have been drawn (R166; log 3). -/
  draws : Nat
deriving DecidableEq, Repr

/-- The machine right after reset (R29, R185). The streams, the host's records and the inputs are not the core's; they are
empty here (log 1, 4, 11), and `draws` is 0 (log 3). -/
def State.reset : State where
  busy := false
  op := 0
  rem := 0
  cnt := 0
  acc := 0
  fac := 0
  res := 0
  st := 0
  xcode := 0
  snk := []
  src := []
  srcCur := 0
  pc := 0
  outcomes := []
  inputs := []
  draws := 0

/-- Where the sink's write cursor stands: just after the bytes appended (R24, R31). -/
def State.snkCur (s : State) : Nat := s.snk.length

end Sys2Proof.Machine
end

