-- ==== Sys2Proof/Machine/Flags.lean ====
section
/-! DEFINITION. The status codes (R21) and the conditions the sequencer tests (R78, R79, R97, R113). The core has no
arithmetic flags (10_state.md section 3). -/

namespace Sys2Proof.Machine

/-- `ST = 0`, `OK` (R21). -/
def stOk : BitVec 2 := 0

/-- `ST = 1`, `UNDERFLOW` (R21). -/
def stUnderflow : BitVec 2 := 1

/-- `ST = 2`, `EXT` (R21). -/
def stExt : BitVec 2 := 2

/-- `c` of R97: more groups follow, `REM > 127`. -/
def moreGroups (r : Word) : Bool := decide (127#64 < r)

/-- `last` of R97: `c = 0`. -/
def isLast (r : Word) : Bool := !moreGroups r

/-- The opcodes whose busy step is an encoder step: `ENC` (1) and `SENC` (5) (R78). -/
def isEncoderOp (o : Opcode) : Bool := o == 1 || o == 5

/-- The opcodes whose busy step is a decoder step: `DEC` (2) and `SDEC` (6) (R78). -/
def isDecoderOp (o : Opcode) : Bool := o == 2 || o == 6

/-- The streaming commands (00_scope.md section 6; R73). -/
def isStreamingOp (o : Opcode) : Bool := isEncoderOp o || isDecoderOp o

end Sys2Proof.Machine
end

