-- ==== Sys2Proof/Machine/Ports.lean ====
section
/-! DEFINITION. The output signals, each a function of registers (R25 to R28, R97), and the source port as the source drives
it (R28). -/

namespace Sys2Proof.Machine

/-- `cmd_ready = NOT BUSY` (R25). -/
def State.cmdReady (s : State) : Bool := !s.busy

/-- `snk_valid`: 1 iff `BUSY = 1` and `OP` is `ENC` or `SENC` (R27). -/
def State.snkValid (s : State) : Bool := s.busy && isEncoderOp s.op

/-- `snk_data = {c, REM[6:0]}`, `c = 1` iff `REM > 127` (R27, R97). -/
def State.snkData (s : State) : Byte := groupByte (moreGroups s.rem) s.rem

/-- `src_req`: 1 iff `BUSY = 1` and `OP` is `DEC` or `SDEC` (R28). -/
def State.srcReq (s : State) : Bool := s.busy && isDecoderOp s.op

/-- The host result port: `busy`, `res`, `st`, `xcode`, straight from registers (R26). -/
structure ResultPort where
  busy  : Bool
  res   : Word
  st    : BitVec 2
  xcode : Byte
deriving DecidableEq, Repr

/-- What the host result port shows (R26). -/
def State.resultPort (s : State) : ResultPort := ⟨s.busy, s.res, s.st, s.xcode⟩

/-- The source's three signals (R28). -/
structure SrcPins where
  valid : Bool
  kind  : BitVec 2
  data  : Byte
deriving DecidableEq, Repr

/-- The signals a source holding `held` drives (R28, R32). -/
def SrcDrive.pins (d : SrcDrive) (held : List Byte) : SrcPins :=
  match d, held with
  | .stall, _ => ⟨false, 0, 0⟩
  | .serve, b :: _ => ⟨true, 0, b⟩
  | .serve, [] => ⟨true, 1, 0⟩
  | .empty, _ => ⟨true, 1, 0⟩
  | .fail c, _ => ⟨true, 2, c⟩
  | .reserved d, _ => ⟨true, 3, d⟩

/-- How the core takes one step of a source request (R28, R32, R75). -/
inductive SrcAnswer where
  | wait
  | byte (b : Byte)
  | empty
  | xerr (c : Byte)
  | reserved
deriving DecidableEq, Repr

/-- The reading of the source's signals while `src_req = 1` (R28). -/
def SrcPins.answer (p : SrcPins) : SrcAnswer :=
  if p.valid then
    match p.kind.toFin with
    | 0 => .byte p.data
    | 1 => .empty
    | 2 => .xerr p.data
    | 3 => .reserved
  else .wait

/-- How the core takes one step of a sink offer (R27, R31, R75). -/
inductive SnkAnswer where
  | wait
  | ack
  | xerr (c : Byte)
deriving DecidableEq, Repr

/-- The reading of the sink's signals while `snk_valid = 1` (R27). -/
def EdgeIn.snkAnswer (e : EdgeIn) : SnkAnswer :=
  if e.snkReady then (if e.snkErr then .xerr e.snkCode else .ack) else .wait

end Sys2Proof.Machine
end

