-- ==== Sys2Proof/Machine/Ops.lean ====
section
/-! DEFINITION. The named operations over registers and streams: what the environment does before an edge, acceptance,
normal and failed completion, reset, and the two stream primitives. -/

namespace Sys2Proof.Machine

/-- What the environment does at the coming edge; quiet when `inputs` has ended (log 1). -/
def State.nextIn (s : State) : EdgeIn := s.inputs.headD EdgeIn.quiet

/-- The state the core sees at the edge `e`: the edge is taken off the list; while the core is idle the host may have put
new contents in place (R192), and a producer may have added bytes to the source (R194; log 14). -/
def State.present (s : State) (e : EdgeIn) : State :=
  { s with
    inputs := s.inputs.tail
    snk := if s.busy then s.snk else e.hostSnk.getD s.snk
    src := (if s.busy then s.src else e.hostSrc.getD s.src) ++ e.srcArrive }

/-- The state the core sees at its next edge. -/
def State.seen (s : State) : State := s.present s.nextIn

/-- Reset: every register takes its reset value (R29, R185). Streams and host records stay (R29, R186). -/
def State.resetRegs (s : State) : State :=
  { s with busy := false, op := 0, rem := 0, cnt := 0, acc := 0, fac := 0, res := 0, st := 0, xcode := 0 }

/-- The part of acceptance every command shares: `OP <- cmd_op`, and the host's index advances (R71). -/
def State.accept (s : State) (op : Opcode) : State := { s with op := op, pc := s.pc + 1 }

/-- A command offered to the core: taken when `BUSY = 0` (R71); while `BUSY = 1` it is not accepted and changes nothing
(R72; log 9). -/
def State.offer (s : State) (k : State → State) : Host.Outcome State Fault Refusal :=
  if s.busy then .next s else .next (k s)

/-- `complete(v)`, normal completion (R76); the host samples the outcome (R81; log 11). -/
def State.complete (s : State) (v : Word) : State :=
  { s with
    busy := false
    res := v
    st := stOk
    xcode := 0
    outcomes := s.outcomes ++ [⟨some v, stOk, 0⟩] }

/-- Failed completion, the hardware's "trap entry" (R165): `ST`, `XCODE` and `BUSY` are written, `RES` takes an unspecified
value (R166; log 3), `OP REM CNT ACC FAC` keep theirs. -/
def State.failCompletion (s : State) (st : BitVec 2) (code : Byte) : State :=
  { s with
    busy := false
    res := Config.freeRes s.draws
    st := st
    xcode := code
    outcomes := s.outcomes ++ [⟨none, st, code⟩]
    draws := s.draws + 1 }

/-- `raise BufferUnderflow` (R114, R161). -/
def State.raiseUnderflow (s : State) : State := s.failCompletion stUnderflow 0

/-- `raise External(c)` (R163). -/
def State.raiseExternal (s : State) (c : Byte) : State := s.failCompletion stExt c

/-- What the acceptance of `ENC` or `SENC` loads: `REM <- v`, `CNT <- 0`, `BUSY <- 1` (R73). -/
def State.startEncode (s : State) (v : Word) : State := { s with busy := true, rem := v, cnt := 0 }

/-- What the acceptance of `DEC` or `SDEC` loads: `ACC <- 0`, `FAC <- 1`, `BUSY <- 1` (R73). -/
def State.startDecode (s : State) : State := { s with busy := true, acc := 0, fac := 1 }

/-- One step of `SnkPut(b)` (R31): `Ack` appends `b` after every byte before it; on `XErr` the sink's content is its own
affair (U4; log 8). -/
def State.snkPut (s : State) (e : EdgeIn) (b : Byte) : SnkAnswer × State :=
  match e.snkAnswer with
  | .wait => (.wait, s)
  | .ack => (.ack, { s with snk := s.snk ++ [b] })
  | .xerr c => (.xerr c, { s with snk := s.snk ++ e.snkKept })

/-- One step of `SrcGet()` (R32): on `Byte` the cursor has moved past that byte; otherwise nothing is consumed (R28). -/
def State.srcGet (s : State) (e : EdgeIn) : SrcAnswer × State :=
  match (e.srcDrive.pins s.src).answer with
  | .byte b => (.byte b, { s with src := s.src.tail, srcCur := s.srcCur + 1 })
  | a => (a, s)

end Sys2Proof.Machine
end

