-- ==== Sys2Proof/Machine/Decoder.lean ====
section
/-! DEFINITION. The unsigned decoder: acceptance of `DEC` and the decoder step (43_decode.md). -/

namespace Sys2Proof.Machine

/-- `DEC`, the accepting step: `OP <- 2; ACC <- 0; FAC <- 1; BUSY <- 1` (R73, R111). -/
def execDec (s : State) : Host.Outcome State Fault Refusal :=
  s.offer fun s => (s.accept 2).startDecode

/-- `ACC <- ACC + FAC × payload(b)`, `FAC <- FAC << 7`, both from the values before the step (R112). -/
def State.accumulate (s : State) (b : Byte) : State :=
  { s with acc := s.acc + s.fac * payload b, fac := s.fac <<< 7 }

/-- One decoder step (R112 to R115); `result` turns the final `ACC` into `RES` (R113). -/
def decoderStep (result : Word → Word) (e : EdgeIn) (s : State) : Host.Outcome State Fault Refusal :=
  match s.srcGet e with
  | (.wait, t) => .next t
  | (.empty, t) => .next t.raiseUnderflow
  | (.xerr c, t) => .next (t.raiseExternal c)
  | (.reserved, _) => .fault .srcKindReserved
  | (.byte b, t) =>
    if contBit b then .next (t.accumulate b)
    else .next ((t.accumulate b).complete (result (t.accumulate b).acc))

/-- A busy step of `DEC`: the result is `ACC` (R111, R113). -/
def runDec (e : EdgeIn) (s : State) : Host.Outcome State Fault Refusal := decoderStep (fun a => a) e s

end Sys2Proof.Machine
end

