-- ==== Sys2Proof/Machine/Encoder.lean ====
section
/-! DEFINITION. The unsigned encoder: acceptance of `ENC` and the encoder step (42_encode.md). -/

namespace Sys2Proof.Machine

/-- `ENC u`, the accepting step: `OP <- 1; REM <- u; CNT <- 0; BUSY <- 1` (R73, R96). -/
def execEnc (u : Word) (s : State) : Host.Outcome State Fault Refusal :=
  s.offer fun s => (s.accept 1).startEncode u

/-- One encoder step (R97 to R100): offer `snk_data`; wait, advance, finish or fail by the sink's answer. -/
def encoderStep (e : EdgeIn) (s : State) : Host.Outcome State Fault Refusal :=
  match s.snkPut e s.snkData with
  | (.wait, t) => .next t
  | (.xerr c, t) => .next (t.raiseExternal c)
  | (.ack, t) =>
    if isLast t.rem then .next (({ t with cnt := t.cnt + 1 }).complete ((t.cnt + 1).setWidth 64))
    else .next { t with cnt := t.cnt + 1, rem := t.rem >>> 7 }

/-- A busy step of `ENC` (R78, R96). -/
def runEnc (e : EdgeIn) (s : State) : Host.Outcome State Fault Refusal := encoderStep e s

end Sys2Proof.Machine
end

