-- ==== Sys2Proof/Machine/Codec.lean ====
section
/-! DEFINITION. The functions the commands compute: `length` (R85, R89), `enc` (R95), `dec` (R110), and the words the
spec uses of byte lists (R61, R64, R116). -/

namespace Sys2Proof.Machine

/-- `length(u)` (R85). -/
def length (u : Word) : Nat := if u = 0 then 1 else ceilDiv (sb u) 7

/-- How often `r` can be shifted right by 7 while the value before the shift exceeds 127, at most `fuel` times (R89). -/
def shiftCount : Nat → Word → Nat
  | 0, _ => 0
  | fuel + 1, r => if moreGroups r then shiftCount fuel (r >>> 7) + 1 else 0

/-- The loop of R95 with at most `fuel` turns before the final byte. -/
def encLoop : Nat → Word → List Byte
  | 0, r => [groupByte false r]
  | fuel + 1, r => if moreGroups r then groupByte true r :: encLoop fuel (r >>> 7) else [groupByte false r]

/-- `enc(u)` (R95). Nine turns suffice: after them at most one bit is left (R101). -/
def enc (u : Word) : List Byte := encLoop 9 u

/-- The outcome of `dec` (R110). -/
inductive DecResult where
  | underflow
  | ok (value : Word) (consumed : Nat)
deriving DecidableEq, Repr

/-- The loop of R110 from accumulator `acc`, multiplier `fac` and `k` bytes consumed. -/
def decLoop (acc fac : Word) (k : Nat) : List Byte → DecResult
  | [] => .underflow
  | b :: bs =>
    if contBit b then decLoop (acc + fac * payload b) (fac <<< 7) (k + 1) bs
    else .ok (acc + fac * payload b) (k + 1)

/-- `dec(S)` (R110). -/
def dec (S : List Byte) : DecResult := decLoop 0 1 0 S

/-- `n` decodes in a row, each from what the one before left (R149): the values and the bytes left. -/
def decMany : Nat → List Byte → Option (List Word × List Byte)
  | 0, S => some ([], S)
  | n + 1, S =>
    match dec S with
    | .underflow => none
    | .ok v k => (decMany n (S.drop k)).map fun p => (v :: p.1, p.2)

/-- A terminated byte sequence: bit 7 set in every byte but the last, clear in the last (R58, R63). -/
def terminated : List Byte → Bool
  | [] => false
  | [b] => !contBit b
  | b :: bs => contBit b && terminated bs

/-- The canonical forms among the terminated sequences (R61 (a) to (c)). -/
def canonical (L : List Byte) : Bool :=
  terminated L && decide (L.length ≤ 10) && (L.length != 10 || L.getLast? == some 0x01) &&
    (L.length ≤ 1 || L.getLast? != some 0x00)

/-- `L` (not empty) with `n + 1` zero groups above it (R64, R117): its last byte gets bit 7, then `n` bytes `80`, then `00`. -/
def padded (L : List Byte) (n : Nat) : List Byte :=
  L.dropLast ++ [L.getLastD 0 ||| 0x80#8] ++ List.replicate n 0x80#8 ++ [0x00#8]

/-- `Σ payload_i × 2^(7i)` in ℕ (R116). -/
def payloadSum : List Byte → Nat
  | [] => 0
  | b :: bs => (payload b).toNat + 2 ^ 7 * payloadSum bs

end Sys2Proof.Machine
end

