-- ==== Sys2Proof/Machine/LengthUnit.lean ====
section
/-! DEFINITION. The length calculator's command (41_length.md). -/

namespace Sys2Proof.Machine

/-- `LEN u`: `RES <- zext_64(length(u))` in the accepting step (R74, R88). -/
def execLen (u : Word) (s : State) : Host.Outcome State Fault Refusal :=
  s.offer fun s => (s.accept 0).complete (BitVec.ofNat 64 (length u))

end Sys2Proof.Machine
end

