-- ==== Sys2Proof/Machine/Signed.lean ====
section
/-! DEFINITION. The signed adapter: the zigzag commands and the signed forms (44_signed.md). -/

namespace Sys2Proof.Machine

/-- `ZZE s`: `RES <- unsign(s)` in the accepting step (R74, R130). -/
def execZze (a : Word) (s : State) : Host.Outcome State Fault Refusal :=
  s.offer fun s => (s.accept 3).complete (unsign a)

/-- `ZZD u`: `RES <- sign(u)` in the accepting step (R74, R131). -/
def execZzd (u : Word) (s : State) : Host.Outcome State Fault Refusal :=
  s.offer fun s => (s.accept 7).complete (sign u)

/-- `SLEN s`: `RES <- zext_64(length(unsign(s)))` in the accepting step (R74, R132). -/
def execSlen (a : Word) (s : State) : Host.Outcome State Fault Refusal :=
  s.offer fun s => (s.accept 4).complete (BitVec.ofNat 64 (length (unsign a)))

/-- `SENC s`, the accepting step: as `ENC` with `REM <- unsign(s)` and `OP <- 5` (R73, R133). -/
def execSenc (a : Word) (s : State) : Host.Outcome State Fault Refusal :=
  s.offer fun s => (s.accept 5).startEncode (unsign a)

/-- `SDEC`, the accepting step: as `DEC` with `OP <- 6` (R73, R134). -/
def execSdec (s : State) : Host.Outcome State Fault Refusal :=
  s.offer fun s => (s.accept 6).startDecode

/-- A busy step of `SENC`: "exactly the loop of ENC" (R133). -/
def runSenc (e : EdgeIn) (s : State) : Host.Outcome State Fault Refusal := encoderStep e s

/-- A busy step of `SDEC`: the loop of `DEC`, the result `sign(ACC)` (R113, R134). -/
def runSdec (e : EdgeIn) (s : State) : Host.Outcome State Fault Refusal := decoderStep sign e s

end Sys2Proof.Machine
end

