-- ==== Sys2Proof/Machine/Dispatch.lean ====
section
/-! DEFINITION. `exec`: the accepting step of each command, one arm per constructor (R71, R73, R74). -/

namespace Sys2Proof.Machine

def exec (i : Instr) (s : State) : Host.Outcome State Fault Refusal :=
  match i with
  | .len u => Sys2Proof.Machine.execLen u s
  | .enc u => Sys2Proof.Machine.execEnc u s
  | .dec => Sys2Proof.Machine.execDec s
  | .zze a => Sys2Proof.Machine.execZze a s
  | .slen a => Sys2Proof.Machine.execSlen a s
  | .senc a => Sys2Proof.Machine.execSenc a s
  | .sdec => Sys2Proof.Machine.execSdec s
  | .zzd u => Sys2Proof.Machine.execZzd u s

end Sys2Proof.Machine
end

