-- ==== Sys2Proof/Machine/Sequencer.lean ====
section
/-! DEFINITION. The sequencer (40_sequencer.md): one clock edge. -/

namespace Sys2Proof.Machine

/-- A step with `rst = 0` and `BUSY = 1`: the running operation's step, chosen by `OP` (R78). -/
def busyEdge (e : EdgeIn) (s : State) : Host.Outcome State Fault Refusal :=
  match s.op.toFin with
  | 1 => runEnc e s
  | 2 => runDec e s
  | 5 => runSenc e s
  | 6 => runSdec e s
  | 0 | 3 | 4 | 7 => .fault .busyWithPureOp

/-- One rising edge of the clock with the inputs `e`. The order is R168's: `rst` wins; else a running operation takes its
step and `cmd_valid` is ignored (R72); else an offered command is accepted (R71); else no register changes (R71). -/
def clockEdge (e : EdgeIn) (s : State) : Host.Outcome State Fault Refusal :=
  if e.rst then .next s.resetRegs
  else if s.busy then busyEdge e s
  else if e.cmdValid then exec (decode (mkCmd e.cmdOp e.cmdArg)) s
  else .next s

/-- The edge at which the host offers the command word `w` and nothing else happens (R25, R50). -/
def offerEdge (w : Cmd) : EdgeIn := { cmdValid := true, cmdOp := cmdOp w, cmdArg := cmdArg w }

/-- `s` with the command word of `nbits` bits offered at its next edge, and the core idle so that it is accepted there
(R25, R71; log 2). -/
def State.offerNext (s : State) (nbits w : Nat) : State :=
  { s with busy := false, inputs := offerEdge (BitVec.ofNat 67 (w % 2 ^ nbits)) :: s.inputs }

end Sys2Proof.Machine
end

