-- ==== Sys2Proof/Machine/Step.lean ====
section
/-! DEFINITION. The step function: one clock edge (R10) with the inputs that stand next in the state. -/

namespace Sys2Proof.Machine

/-- One step: the environment acts (R11), then the clock edge happens (R10). -/
def step (s : State) : Host.Outcome State Fault Refusal :=
  clockEdge s.nextIn s.seen

/-- `s` with the command word `w` on the command port at the next edge (log 2). -/
def State.withFetchWord (s : State) (nbits w : Nat) : State := s.offerNext nbits w

end Sys2Proof.Machine
end

