-- ==== Sys2Proof/Machine/Assembler.lean ====
section
/-! DEFINITION. The assembler (R65, R66, 30_encoding.md section 4): operands, lines of text, the word a line assembles to and
how a word is written. Text is a list of characters. -/

namespace Sys2Proof

/-- The value an unsigned operand names (R65). -/
def UOperand.value : UOperand → Nat
  | .dec n => n
  | .hex n => n
  | .pow k => 2 ^ k
  | .powMinusOne k => 2 ^ k - 1

/-- The argument field of an unsigned operand (R53, R65). -/
def UOperand.word (o : UOperand) : Word := BitVec.ofNat 64 o.value

/-- The argument field of a signed operand: two's complement, or the pattern as given (R53, R65). -/
def SOperand.word : SOperand → Word
  | .dec z => Machine.twos z
  | .hex n => BitVec.ofNat 64 n

/-- The command of a line: "every line assembles to exactly one command word" (R66). -/
def AsmLine.instr : AsmLine → Instr
  | .len u => .len u.word
  | .enc u => .enc u.word
  | .dec => .dec
  | .zze s => .zze s.word
  | .slen s => .slen s.word
  | .senc s => .senc s.word
  | .sdec => .sdec
  | .zzd u => .zzd u.word

/-- The word a line assembles to; none when its operand is out of range (R65; log 15). -/
def AsmLine.assemble (l : AsmLine) : Option Cmd := if l.wf then some (encode l.instr) else none

namespace Asm

/-- The mnemonics of R52 and the lower-case aliases of R66, with their opcodes. -/
def names : List (List Char × Opcode) :=
  [(['L', 'E', 'N'], 0), (['E', 'N', 'C'], 1), (['D', 'E', 'C'], 2), (['Z', 'Z', 'E'], 3),
   (['S', 'L', 'E', 'N'], 4), (['S', 'E', 'N', 'C'], 5), (['S', 'D', 'E', 'C'], 6), (['Z', 'Z', 'D'], 7)] ++
  [(['l', 'e', 'n', 'g', 't', 'h'], 0), (['e', 'n', 'c', 'o', 'd', 'e'], 1), (['d', 'e', 'c', 'o', 'd', 'e'], 2),
   (['u', 'n', 's', 'i', 'g', 'n'], 3), (['s', 'i', 'g', 'n'], 7)] ++
  [(['s', 'i', 'g', 'n', 'e', 'd', '_', 'l', 'e', 'n', 'g', 't', 'h'], 4),
   (['s', 'i', 'g', 'n', 'e', 'd', '_', 'e', 'n', 'c', 'o', 'd', 'e'], 5),
   (['s', 'i', 'g', 'n', 'e', 'd', '_', 'd', 'e', 'c', 'o', 'd', 'e'], 6)]

/-- The opcode a name stands for (R52, R66). -/
def opOfName (m : List Char) : Option Opcode := names.lookup m

/-- A decimal digit's value. -/
def decDigit (c : Char) : Option Nat := if '0' ≤ c ∧ c ≤ '9' then some (c.toNat - '0'.toNat) else none

/-- A hexadecimal digit's value, upper or lower case (log 15). -/
def hexDigit (c : Char) : Option Nat :=
  if 'A' ≤ c ∧ c ≤ 'F' then some (c.toNat - 'A'.toNat + 10)
  else if 'a' ≤ c ∧ c ≤ 'f' then some (c.toNat - 'a'.toNat + 10)
  else decDigit c

/-- The value of a digit string, from the left, on top of `acc`. -/
def digitsOnto (base : Nat) (digit : Char → Option Nat) (acc : Nat) : List Char → Option Nat
  | [] => some acc
  | c :: cs =>
    match digit c with
    | some d => digitsOnto base digit (acc * base + d) cs
    | none => none

/-- The value of a non-empty digit string, of any length: leading zeros change nothing (log 15). -/
def number (base : Nat) (digit : Char → Option Nat) : List Char → Option Nat
  | [] => none
  | c :: cs => digitsOnto base digit 0 (c :: cs)

/-- `k` of a power expression `2^k` or `2^k-1` (R65). -/
def power (cs : List Char) : Option UOperand :=
  match number 10 decDigit (cs.takeWhile (· != '-')), cs.dropWhile (· != '-') with
  | some k, [] => some (.pow k)
  | some k, ['-', '1'] => some (.powMinusOne k)
  | _, _ => none

/-- An unsigned operand: decimal, `0x…`, `2^k`, `2^k-1` (R65), each with any number of digits (log 15). -/
def uOperand : List Char → Option UOperand
  | '0' :: 'x' :: cs => (number 16 hexDigit cs).map .hex
  | '2' :: '^' :: cs => power cs
  | cs => (number 10 decDigit cs).map .dec

/-- A signed operand: decimal with an optional minus sign, or `0x…` (R65). `-0` is 0, and a pattern of fewer than 16 digits
has zeros above them (log 15). -/
def sOperand : List Char → Option SOperand
  | '0' :: 'x' :: cs => (number 16 hexDigit cs).map .hex
  | '-' :: cs => (number 10 decDigit cs).map fun n => .dec (-(n : Int))
  | cs => (number 10 decDigit cs).map fun n => .dec (n : Int)

/-- The words of a text between spaces and tabs; `cur` is the word being read, last character first (log 15). -/
def wordsOnto (cur : List Char) : List Char → List (List Char)
  | [] => if cur.isEmpty then [] else [cur.reverse]
  | c :: cs =>
    if c = ' ' ∨ c = '\t' then (if cur.isEmpty then wordsOnto [] cs else cur.reverse :: wordsOnto [] cs)
    else wordsOnto (c :: cur) cs

/-- The words of a line, its comment removed: "A `;` starts a comment" (R65). -/
def lineWords (text : List Char) : List (List Char) := wordsOnto [] (text.takeWhile (· != ';'))

/-- A line without an operand: `DEC` and `SDEC` (R65). -/
def plainLine (op : Opcode) : Option AsmLine :=
  if op = 2 then some .dec else if op = 6 then some .sdec else none

/-- A line with an operand, unsigned for `LEN ENC ZZD` and signed for `SLEN SENC ZZE` (R65). -/
def operandLine (op : Opcode) (o : List Char) : Option AsmLine :=
  match op.toFin with
  | 0 => (uOperand o).map .len
  | 1 => (uOperand o).map .enc
  | 3 => (sOperand o).map .zze
  | 4 => (sOperand o).map .slen
  | 5 => (sOperand o).map .senc
  | 7 => (uOperand o).map .zzd
  | 2 | 6 => none

/-- One line of assembler text: `MNEMONIC` or `MNEMONIC operand` (R65). -/
def parseLine (text : List Char) : Option AsmLine :=
  match lineWords text with
  | [m] => (opOfName m).bind plainLine
  | [m, o] => (opOfName m).bind fun op => operandLine op o
  | _ => none

/-- The word a line of text assembles to (R65, R66). -/
def assembleText (text : List Char) : Option Cmd := (parseLine text).bind AsmLine.assemble

/-- The digit characters, by value. -/
def digitChar (d : Nat) : Char := Char.ofNat (if d < 10 then '0'.toNat + d else 'A'.toNat + (d - 10))

/-- The last `k` digits of `n`, most significant first. -/
def digits (base : Nat) : Nat → Nat → List Char
  | 0, _ => []
  | k + 1, n => digits base k (n / base) ++ [digitChar (n % base)]

/-- How an assembled word is written: "a 3-bit opcode and a 16-digit hexadecimal argument" (R65). -/
def listing (w : Cmd) : List Char :=
  ['o', 'p', '='] ++ digits 2 3 (cmdOp w).toNat ++ [' ', 'a', 'r', 'g', '=', '0', 'x'] ++
    digits 16 16 (cmdArg w).toNat

/-- The word as one number, `0x` and 17 hexadecimal digits (R65). -/
def cmdText (w : Cmd) : List Char := ['0', 'x'] ++ digits 16 17 w.toNat

end Asm

end Sys2Proof
end

