-- ==== Sys2Proof/Safety.lean ====
section
/-! DEFINITION. What the host may observe (R81, R190), the invariant of the machine, and which environments the claims speak
of. -/

namespace Sys2Proof.Machine

/-- `k` steps, stopping at the first fault or refusal; the same as `core.run` (`Sys2Proof/Laws/Run.lean`), at the model's own
types. -/
def run : Nat → State → Host.Outcome State Fault Refusal
  | 0, s => .next s
  | k + 1, s =>
    match step s with
    | .next t => run k t
    | .fault f => .fault f
    | .refused r => .refused r

/-- What the host may read as the outcome of a command: nothing while `BUSY = 1` (R190, U2), and no `RES` after a failure
(R166). -/
def State.observe (s : State) : Option HostOutcome :=
  if s.busy then none else some ⟨if s.st = stOk then some s.res else none, s.st, s.xcode⟩

/-- A run of `m` commands has ended (R81). -/
def State.runEnded (s : State) (m : Nat) : Bool := decide (s.pc = m) && !s.busy

/-- The final state of a run (R81): the sampled outcomes and the two streams. -/
structure FinalState where
  outcomes : List HostOutcome
  snk      : List Byte
  src      : List Byte
deriving DecidableEq, Repr

/-- The part of a state R81 lets a claim speak of. -/
def State.final (s : State) : FinalState := ⟨s.outcomes, s.snk, s.src⟩

/-- An edge at which the source keeps to the three answers of R28 (U6). -/
def EdgeIn.legal (e : EdgeIn) : Bool :=
  match e.srcDrive with
  | .reserved _ => false
  | _ => true

/-- The command the host offers at an edge. -/
def EdgeIn.command (e : EdgeIn) : Instr := decode (mkCmd e.cmdOp e.cmdArg)

/-- At this edge the host has the command `i` accepted by an idle core (R25). -/
def EdgeIn.accepts (e : EdgeIn) (i : Instr) : Prop := e.rst = false ∧ e.cmdValid = true ∧ e.command = i

/-- At this edge there is no reset and the sink stalls or acknowledges (R27, R75). -/
def EdgeIn.sinkWorks (e : EdgeIn) : Bool := !e.rst && !(e.snkReady && e.snkErr)

/-- At this edge there is no reset and the source stalls or serves (R28, R75). -/
def EdgeIn.sourceWorks (e : EdgeIn) : Bool := !e.rst && (e.srcDrive == .stall || e.srcDrive == .serve)

/-- The result of a pure command (R74, R88, R130 to R132); none for a streaming command. -/
def pureResult : Instr → Option Word
  | .len u => some (BitVec.ofNat 64 (length u))
  | .zze a => some (unsign a)
  | .slen a => some (BitVec.ofNat 64 (length (unsign a)))
  | .zzd u => some (sign u)
  | .enc _ => none
  | .dec => none
  | .senc _ => none
  | .sdec => none

/-- All the bytes producers add to the source over some edges (R194). -/
def arrivals (es : List EdgeIn) : List Byte := es.flatMap (·.srcArrive)

/-- The ideal environment's edge (00_scope.md section 6): the sink acknowledges and the source serves at once. -/
def EdgeIn.ideal : EdgeIn := { snkReady := true, srcDrive := .serve }

/-- The multiplier and accumulator while a decode runs: `FAC = 2^(7k)`, `ACC < 2^(7k)`, or `FAC = 0` (R19, R119). -/
def State.decoderInv (s : State) : Prop :=
  s.fac = 0 ∨ ∃ k, k ≤ 9 ∧ s.fac.toNat = 2 ^ (7 * k) ∧ s.acc.toNat < 2 ^ (7 * k)

/-- An outcome the spec lets a command have (R160): `OK` with a result and code 0, `UNDERFLOW` with code 0, `EXT`. -/
def HostOutcome.ok (o : HostOutcome) : Prop :=
  (o.st = stOk ∧ o.res.isSome ∧ o.xcode = 0) ∨ (o.st = stUnderflow ∧ o.res = none ∧ o.xcode = 0) ∨
    (o.st = stExt ∧ o.res = none)

/-- The invariant: `ST` is never 3 (R21); `XCODE` is 0 unless `ST = 2` (R22); a busy core runs a streaming command (R78);
`CNT` never exceeds 10 (R17) and a running encode has room for the bytes still to come (R101); the decoder's registers keep
to R119; a byte count on the result port has `res[63:4] = 0` (R56); every sampled outcome is one of R160. -/
structure State.Inv (s : State) : Prop where
  st_legal : s.st ≠ 3
  xcode_zero : s.st ≠ stExt → s.xcode = 0
  busy_streams : s.busy = true → isStreamingOp s.op = true
  cnt_le : s.cnt.toNat ≤ 10
  encode_room : s.snkValid = true → s.cnt.toNat + length s.rem ≤ 10
  decoder : s.srcReq = true → s.decoderInv
  count_result : s.busy = false → s.st = stOk → (s.op = 0 ∨ s.op = 4 ∨ isEncoderOp s.op = true) → s.res.toNat ≤ 10
  outcomes_ok : ∀ o ∈ s.outcomes, o.ok

end Sys2Proof.Machine
end

