-- ==== Sys2Proof/Certificates/Slice0/Obligations.lean ====
section
/-! DEFINITION. The statements for the provers. Each docstring names the rule of spec/ it formalises.
Where a statement gives a whole next state, `inputs`, `outcomes`, `draws` and the bytes in `srcArrive` are the environment as the
model holds it (log 1, 3, 11, 14); the rules cited speak of the other fields. -/

open Sys2Proof Sys2Proof.Machine

/-! ### Encoding -/

/-- Decoding the word of any well-formed command gives the command back, with its operand at every value (R50, R52, R53). -/
def Obligations.DecodeOfEncodeIsTheCommand : Prop :=
  ∀ i : Instr, i.wf = true → decode (encode i) = i

/-- The opcode map of R52 over all arguments; the argument of `DEC` and `SDEC` is ignored (R54); every word is a command that an
idle core executes (R55). Last clause: every word re-encodes to itself but for an ignored argument, where the encoder writes 0;
that `DEC` and `SDEC` carry no operand is the model's reading (log 10). -/
def Obligations.EveryWordSelectsItsCommand : Prop :=
  (∀ a : Word,
    decode (mkCmd 0 a) = .len a ∧ decode (mkCmd 1 a) = .enc a ∧ decode (mkCmd 2 a) = .dec ∧
    decode (mkCmd 3 a) = .zze a ∧ decode (mkCmd 4 a) = .slen a ∧ decode (mkCmd 5 a) = .senc a ∧
    decode (mkCmd 6 a) = .sdec ∧ decode (mkCmd 7 a) = .zzd a) ∧
  (∀ (w : Cmd) (s : State), s.busy = false → ∃ t, exec (decode w) s = .next t ∧ t.op = cmdOp w ∧ t.pc = s.pc + 1) ∧
  ∀ w : Cmd, encode (decode w) = if isDecoderOp (cmdOp w) then mkCmd (cmdOp w) 0 else w

/-- Words written out in 95_test_vectors.md decode to the commands they stand for. -/
def Obligations.WrittenWordsDecode : Prop :=
  decode 0x00000000000000064#67 = .len 100 ∧ decode 0x100000000000003E8#67 = .enc 1000 ∧
  decode 0x2DEADBEEFDEADBEEF#67 = .dec ∧ decode 0x3FFFFFFFFFFFFFFFF#67 = .zze (twos (-1)) ∧
  decode 0x48000000000000000#67 = .slen (twos (-9223372036854775808)) ∧
  decode 0x5FFFFFFFFFFFFFF9C#67 = .senc (twos (-100)) ∧ decode 0x60000000000000000#67 = .sdec ∧
  decode 0x70000000000000003#67 = .zzd 3

/-- R65, R66, per mnemonic: the word `{op, arg}` a line assembles to, its opcode that of R52 and its argument the operand's
value, for an operand in range (unsigned: `[0, 2^64 - 1]`; signed decimal: `[-2^63, 2^63 - 1]`; hexadecimal: 64 bits); and what
value each operand form names. That a line whose operand is out of range assembles to nothing, and that a power expression is in
range when its value is, are the model's choices (log 15). -/
def Obligations.AssembledWordCarriesTheOperand : Prop :=
  (∀ o : UOperand, o.value < 2 ^ 64 → ∃ w : Word, w.toNat = o.value ∧
    (AsmLine.len o).assemble = some (mkCmd 0 w) ∧ (AsmLine.enc o).assemble = some (mkCmd 1 w) ∧
    (AsmLine.zzd o).assemble = some (mkCmd 7 w)) ∧
  (∀ z : Int, -(2 ^ 63) ≤ z → z < 2 ^ 63 → ∃ w : Word, signed w = z ∧
    (AsmLine.zze (.dec z)).assemble = some (mkCmd 3 w) ∧ (AsmLine.slen (.dec z)).assemble = some (mkCmd 4 w) ∧
    (AsmLine.senc (.dec z)).assemble = some (mkCmd 5 w)) ∧
  (∀ n : Nat, n < 2 ^ 64 → ∃ w : Word, w.toNat = n ∧
    (AsmLine.zze (.hex n)).assemble = some (mkCmd 3 w) ∧ (AsmLine.slen (.hex n)).assemble = some (mkCmd 4 w) ∧
    (AsmLine.senc (.hex n)).assemble = some (mkCmd 5 w)) ∧
  AsmLine.dec.assemble = some (mkCmd 2 0) ∧ AsmLine.sdec.assemble = some (mkCmd 6 0) ∧
  (∀ n : Nat, (UOperand.dec n).value = n ∧ (UOperand.hex n).value = n ∧ (UOperand.pow n).value = 2 ^ n ∧
    (UOperand.powMinusOne n).value = 2 ^ n - 1) ∧
  (∀ o : UOperand, 2 ^ 64 ≤ o.value →
    (AsmLine.len o).assemble = none ∧ (AsmLine.enc o).assemble = none ∧ (AsmLine.zzd o).assemble = none) ∧
  ∀ o : SOperand, (∃ z : Int, o = .dec z ∧ (z < -(2 ^ 63) ∨ 2 ^ 63 ≤ z)) ∨ (∃ n : Nat, o = .hex n ∧ 2 ^ 64 ≤ n) →
    (AsmLine.zze o).assemble = none ∧ (AsmLine.slen o).assemble = none ∧ (AsmLine.senc o).assemble = none

/-! ### The step, acceptance, reset -/

/-- An idle core with `rst = 0` and `cmd_valid = 1` runs exactly the command on the command port (R25, R71); in particular
the word placed by `withFetchWord`. -/
def Obligations.IdleStepRunsTheOfferedCommand : Prop :=
  (∀ s : State, s.busy = false → s.nextIn.rst = false → s.nextIn.cmdValid = true →
    step s = exec (decode (mkCmd s.nextIn.cmdOp s.nextIn.cmdArg)) s.seen) ∧
  ∀ (s : State) (nbits w : Nat) (i : Instr), decodeTableWord nbits w = some i →
    step (s.withFetchWord nbits w) = exec i { s with busy := false }

/-- R71: the accepted command's opcode goes to `OP`, the host's index advances by one, and the rest of the step is the
command's own (R73, R74: `exec`); with no command offered no register changes. -/
def Obligations.AcceptanceRecordsOpcode : Prop :=
  ∀ s : State, s.busy = false → s.nextIn.rst = false →
    (s.nextIn.cmdValid = true → ∃ t, step s = .next t ∧ exec s.nextIn.command s.seen = .next t ∧
      t.op = s.nextIn.cmdOp ∧ t.pc = s.pc + 1) ∧
    (s.nextIn.cmdValid = false → step s = .next s.seen)

/-- R72: a command offered while `BUSY = 1` is not accepted: whatever stands on the command port, the step is the same. The
clause on `exec`, which no step of a busy core calls, is the model's reading of R72 (log 9). -/
def Obligations.BusyCoreIgnoresTheCommandPort : Prop :=
  ∀ s : State, s.busy = true →
    s.cmdReady = false ∧ (∀ i, exec i s = .next s) ∧
    ∀ (e : EdgeIn) (es : List EdgeIn) (v : Bool) (o : Opcode) (a : Word),
      step { s with inputs := { e with cmdValid := v, cmdOp := o, cmdArg := a } :: es } =
        step { s with inputs := e :: es }

/-- The registers and the outputs of the model's reset state are R29's. -/
def Obligations.ResetValues : Prop :=
  let s := State.reset
  s.busy = false ∧ s.op = 0 ∧ s.rem = 0 ∧ s.cnt = 0 ∧ s.acc = 0 ∧ s.fac = 0 ∧ s.res = 0 ∧ s.st = 0 ∧ s.xcode = 0 ∧
  s.cmdReady = true ∧ s.snkValid = false ∧ s.srcReq = false ∧ s.resultPort = ⟨false, 0, 0, 0⟩

/-- R29, R185, R186: at a step with `rst = 1` every register takes its reset value, and with it every output, whatever else
is driven; no command is accepted, no outcome is reported, and what the streams hold stays. -/
def Obligations.ResetEdgeWins : Prop :=
  ∀ s : State, s.nextIn.rst = true → ∃ t, step s = .next t ∧
    t.busy = false ∧ t.op = 0 ∧ t.rem = 0 ∧ t.cnt = 0 ∧ t.acc = 0 ∧ t.fac = 0 ∧ t.res = 0 ∧ t.st = 0 ∧ t.xcode = 0 ∧
    t.pc = s.pc ∧ t.outcomes = s.outcomes ∧ t.snk = s.seen.snk ∧ t.src = s.seen.src ∧ t.srcCur = s.srcCur ∧
    t.inputs = s.inputs.tail ∧ t.draws = s.draws ∧
    t.cmdReady = true ∧ t.snkValid = false ∧ t.srcReq = false ∧ t.resultPort = ⟨false, 0, 0, 0⟩ ∧
    (s.busy = true → t.snk = s.snk ∧ t.src = s.src ++ s.nextIn.srcArrive)

/-- R70: the two control states and the four handshake outputs. -/
def Obligations.TwoControlStates : Prop :=
  ∀ s : State, s.Inv →
    (s.busy = false → s.cmdReady = true ∧ s.snkValid = false ∧ s.srcReq = false ∧
      s.observe = some ⟨if s.st = 0 then some s.res else none, s.st, s.xcode⟩) ∧
    (s.busy = true → s.cmdReady = false ∧ s.snkValid = !s.srcReq ∧
      (s.snkValid = true ↔ s.op = 1 ∨ s.op = 5) ∧ (s.srcReq = true ↔ s.op = 2 ∨ s.op = 6))

/-- R73: the acceptance of the four streaming commands by an idle core; everything not named keeps its value. -/
def Obligations.StreamingAcceptance : Prop :=
  ∀ (s : State) (a : Word), s.busy = false →
    exec (.enc a) s = .next { s with op := 1, pc := s.pc + 1, busy := true, rem := a, cnt := 0 } ∧
    exec (.senc a) s = .next { s with op := 5, pc := s.pc + 1, busy := true, rem := unsign a, cnt := 0 } ∧
    exec .dec s = .next { s with op := 2, pc := s.pc + 1, busy := true, acc := 0, fac := 1 } ∧
    exec .sdec s = .next { s with op := 6, pc := s.pc + 1, busy := true, acc := 0, fac := 1 }

/-- R88: `LEN` completes in the accepting step; everything not named keeps its value. -/
def Obligations.LenCompletes : Prop :=
  (∀ (s : State) (u : Word), s.busy = false →
    exec (.len u) s = .next { s with
      op := 0, pc := s.pc + 1, busy := false, res := BitVec.ofNat 64 (length u), st := 0, xcode := 0
      outcomes := s.outcomes ++ [⟨some (BitVec.ofNat 64 (length u)), 0, 0⟩] }) ∧
  (∀ u : Word, cmdOp (encode (.len u)) = 0 ∧ 1 ≤ length u ∧ length u ≤ 10) ∧
  length 1000 = 2 ∧ length 0 = 1 ∧ length 127 = 1 ∧ length 128 = 2 ∧ length 0x8000000000000000 = 10 ∧ length 0xFFFFFFFFFFFFFFFF = 10

/-- R130: `ZZE` completes in the accepting step; everything not named keeps its value. -/
def Obligations.ZzeCompletes : Prop :=
  (∀ (s : State) (a : Word), s.busy = false →
    exec (.zze a) s = .next { s with
      op := 3, pc := s.pc + 1, busy := false, res := (a <<< 1) ^^^ a.sshiftRight 63, st := 0, xcode := 0
      outcomes := s.outcomes ++ [⟨some ((a <<< 1) ^^^ a.sshiftRight 63), 0, 0⟩] }) ∧
  (∀ a : Word, cmdOp (encode (.zze a)) = 3) ∧ unsign 0 = 0 ∧ unsign (twos (-1)) = 1 ∧ unsign (twos (2 ^ 63 - 1)) = 0xFFFFFFFFFFFFFFFE ∧
  unsign (twos (-(2 ^ 63))) = 0xFFFFFFFFFFFFFFFF ∧ unsign (twos (-100)) = 199

/-- R131: `ZZD` completes in the accepting step; everything not named keeps its value. -/
def Obligations.ZzdCompletes : Prop :=
  (∀ (s : State) (u : Word), s.busy = false →
    exec (.zzd u) s = .next { s with
      op := 7, pc := s.pc + 1, busy := false, res := (u >>> 1) ^^^ (0 - (u &&& 1)), st := 0, xcode := 0
      outcomes := s.outcomes ++ [⟨some ((u >>> 1) ^^^ (0 - (u &&& 1))), 0, 0⟩] }) ∧
  (∀ u : Word, cmdOp (encode (.zzd u)) = 7) ∧ sign 0 = 0 ∧ sign 1 = twos (-1) ∧ sign 0xFFFFFFFFFFFFFFFF = twos (-(2 ^ 63)) ∧
  sign 0xFFFFFFFFFFFFFFFE = twos (2 ^ 63 - 1) ∧ sign 199 = twos (-100)

/-- R132: `SLEN` completes in the accepting step with the length of the transformed value. The last clause is R132's own
inference: that length is the least `n` with `-2^(7n-1) ≤ s < 2^(7n-1)`, capped at 10. -/
def Obligations.SlenCompletes : Prop :=
  (∀ (s : State) (a : Word), s.busy = false →
    exec (.slen a) s = .next { s with
      op := 4, pc := s.pc + 1, busy := false, res := BitVec.ofNat 64 (length (unsign a)), st := 0, xcode := 0
      outcomes := s.outcomes ++ [⟨some (BitVec.ofNat 64 (length (unsign a))), 0, 0⟩] }) ∧
  (∀ p ∈ ([(0, 1), (-1, 1), (63, 1), (-64, 1), (64, 2), (-65, 2), (100, 2), (-100, 2), (2 ^ 63 - 1, 10), (-(2 ^ 63), 10),
      (-(2 ^ 62), 9), (2 ^ 62, 10)] : List (Int × Nat)), length (unsign (twos p.1)) = p.2) ∧
  ∀ a : Word, cmdOp (encode (.slen a)) = 4 ∧ let n := length (unsign a)
    1 ≤ n ∧ n ≤ 10 ∧
    (n < 10 → -(2 ^ (7 * n - 1)) ≤ signed a ∧ signed a < 2 ^ (7 * n - 1)) ∧
    ∀ m, 1 ≤ m → m < n → ¬(-(2 ^ (7 * m - 1)) ≤ signed a ∧ signed a < 2 ^ (7 * m - 1))

/-- R193: a pure command's word held on the command port for `k` idle steps is executed `k` times. -/
def Obligations.HeldPureCommandRepeats : Prop :=
  ∀ (s : State) (i : Instr) (v : Word) (k : Nat) (rest : List EdgeIn),
    s.busy = false → pureResult i = some v → s.inputs = List.replicate k (offerEdge (encode i)) ++ rest →
    ∃ t, run k s = .next t ∧ t.busy = false ∧ t.pc = s.pc + k ∧ t.inputs = rest ∧
      t.outcomes = s.outcomes ++ List.replicate k ⟨some v, 0, 0⟩ ∧ t.snk = s.snk ∧ t.src = s.src ∧
      (1 ≤ k → t.res = v ∧ t.st = 0 ∧ t.xcode = 0 ∧ t.op = i.opcode)

/-! ### The encoder step -/

/-- R75: a busy step whose transfer does not happen changes no register and no output. -/
def Obligations.StallChangesNoRegister : Prop :=
  ∀ s : State, s.busy = true → s.nextIn.rst = false →
    ((s.op = 1 ∨ s.op = 5) ∧ s.nextIn.snkReady = false ∨ (s.op = 2 ∨ s.op = 6) ∧ s.nextIn.srcDrive = .stall) →
    step s = .next { s with inputs := s.inputs.tail, src := s.src ++ s.nextIn.srcArrive }

/-- R97, R98: what the encoder offers in every step, unchanged by a stall; and a transfer answered `Ack` that is not the
last: the encoder advances, and everything not named keeps its value. -/
def Obligations.EncoderAdvances : Prop :=
  ∀ s : State, s.busy = true → (s.op = 1 ∨ s.op = 5) →
    s.snkValid = true ∧ s.snkData.toNat = (if 127 < s.rem.toNat then 128 else 0) + s.rem.toNat % 128 ∧
    (s.nextIn.rst = false → s.nextIn.snkReady = false →
      ∃ t, step s = .next t ∧ t.snkValid = true ∧ t.snkData = s.snkData) ∧
    (s.nextIn.rst = false → s.nextIn.snkReady = true → s.nextIn.snkErr = false → 127 < s.rem.toNat →
      step s = .next { s with
        inputs := s.inputs.tail, src := s.src ++ s.nextIn.srcArrive, snk := s.snk ++ [s.snkData]
        rem := s.rem >>> 7, cnt := s.cnt + 1 })

/-- R99 with R76: the last byte is acknowledged and the operation completes with its count; everything not named keeps its
value. -/
def Obligations.EncoderFinishes : Prop :=
  ∀ s : State, s.busy = true → (s.op = 1 ∨ s.op = 5) → s.nextIn.rst = false → s.nextIn.snkReady = true →
    s.nextIn.snkErr = false → s.rem.toNat ≤ 127 →
    step s = .next { s with
      inputs := s.inputs.tail, src := s.src ++ s.nextIn.srcArrive, snk := s.snk ++ [s.snkData]
      cnt := s.cnt + 1, busy := false, res := (s.cnt + 1).setWidth 64, st := 0, xcode := 0
      outcomes := s.outcomes ++ [⟨some ((s.cnt + 1).setWidth 64), 0, 0⟩] }

/-- R100: the sink answers `XErr(c)`, last byte or not: `ST`, `XCODE`, `BUSY` are written, `RES` takes some value, the other
registers and the bytes acknowledged before stay. `snkKept` is what the sink itself kept (U4); nothing is said of the model's
own `draws`. -/
def Obligations.SinkFailureEndsTheEncode : Prop :=
  ∀ s : State, s.busy = true → (s.op = 1 ∨ s.op = 5) → s.nextIn.rst = false → s.nextIn.snkReady = true →
    s.nextIn.snkErr = true →
    ∃ (r : Word) (d : Nat), step s = .next { s with
      inputs := s.inputs.tail, src := s.src ++ s.nextIn.srcArrive, snk := s.snk ++ s.nextIn.snkKept
      busy := false, res := r, st := 2, xcode := s.nextIn.snkCode
      outcomes := s.outcomes ++ [⟨none, 2, s.nextIn.snkCode⟩], draws := d }

/-! ### The decoder step -/

/-- R112, R113: the decoder requests in every step; a transfer answered `Byte(b)` accumulates the payload, and by bit 7 of
`b` alone goes on or completes with the new `ACC`, through `sign` for `SDEC`. Everything not named keeps its value. -/
def Obligations.DecoderTakesAByte : Prop :=
  ∀ s : State, s.busy = true → (s.op = 2 ∨ s.op = 6) →
    s.srcReq = true ∧
    ∀ (b : Byte) (rest : List Byte), s.nextIn.rst = false → s.nextIn.srcDrive = .serve →
      s.src ++ s.nextIn.srcArrive = b :: rest →
      let A := s.acc + s.fac * BitVec.ofNat 64 (b.toNat % 128)
      let v := if s.op = 6 then sign A else A
      (128 ≤ b.toNat →
        step s = .next { s with
          inputs := s.inputs.tail, src := rest, srcCur := s.srcCur + 1, acc := A, fac := s.fac <<< 7 }) ∧
      (b.toNat < 128 →
        step s = .next { s with
          inputs := s.inputs.tail, src := rest, srcCur := s.srcCur + 1, acc := A, fac := s.fac <<< 7
          busy := false, res := v, st := 0, xcode := 0, outcomes := s.outcomes ++ [⟨some v, 0, 0⟩] })

/-- R114: the source answers `Empty`: BufferUnderflow. `RES` takes some value, the other registers stay, nothing is consumed
or given back; nothing is said of the model's own `draws`. -/
def Obligations.EmptySourceUnderflows : Prop :=
  ∀ s : State, s.busy = true → (s.op = 2 ∨ s.op = 6) → s.nextIn.rst = false →
    (s.nextIn.srcDrive = .serve ∧ s.src ++ s.nextIn.srcArrive = [] ∨ s.nextIn.srcDrive = .empty) →
    ∃ (r : Word) (d : Nat), step s = .next { s with
      inputs := s.inputs.tail, src := s.src ++ s.nextIn.srcArrive, busy := false, res := r, st := 1, xcode := 0
      outcomes := s.outcomes ++ [⟨none, 1, 0⟩], draws := d }

/-- R115: the source answers `XErr(c)`. `RES` takes some value, the other registers stay, nothing is consumed; nothing is
said of the model's own `draws`. -/
def Obligations.SourceFailureEndsTheDecode : Prop :=
  ∀ (s : State) (c : Byte), s.busy = true → (s.op = 2 ∨ s.op = 6) → s.nextIn.rst = false →
    s.nextIn.srcDrive = .fail c →
    ∃ (r : Word) (d : Nat), step s = .next { s with
      inputs := s.inputs.tail, src := s.src ++ s.nextIn.srcArrive, busy := false, res := r, st := 2, xcode := c
      outcomes := s.outcomes ++ [⟨none, 2, c⟩], draws := d }

/-- R119: while a decode runs the addition of R112 never carries; it is an OR, of the payload shifted into place. -/
def Obligations.AccumulationNeverCarries : Prop :=
  ∀ (s : State) (b : Byte), s.decoderInv →
    s.acc.toNat + (s.fac * payload b).toNat < 2 ^ 64 ∧
    s.acc + s.fac * payload b = s.acc ||| s.fac * payload b ∧
    ∀ k, k ≤ 9 → s.fac.toNat = 2 ^ (7 * k) → s.fac * payload b = payload b <<< (7 * k)

/-! ### The length function -/

/-- R85: the definition of `length`; R60: it is the byte count of the encoding, the least `n ≥ 1` with `u < 2^(7n)`; R4: it
is 1 to 10, 1 for 0 and 10 for `2^64 - 1`, for signed values alike. -/
def Obligations.LengthIsTheLeastByteCount : Prop :=
  ∀ u : Word,
    (u = 0 → length u = 1 ∧ sb u = 0) ∧
    (u ≠ 0 → length u = (sb u + 6) / 7 ∧ 1 ≤ sb u ∧ sb u ≤ 64 ∧ 2 ^ (sb u - 1) ≤ u.toNat ∧ u.toNat < 2 ^ sb u) ∧
    1 ≤ length u ∧ length u ≤ 10 ∧ u.toNat < 2 ^ (7 * length u) ∧
    (∀ n, 1 ≤ n → u.toNat < 2 ^ (7 * n) → length u ≤ n) ∧ (enc u).length = length u ∧
    1 ≤ length (unsign u) ∧ length (unsign u) ≤ 10 ∧
    (enc 0).length = 1 ∧ (enc 0xFFFFFFFFFFFFFFFF).length = 10

/-- R86: the table, row by row: `sb` from, `sb` to, `u` from, `u` to, `length`. -/
def Obligations.LengthTable : Prop :=
  ∀ r ∈ ([(0, 0, 0, 0, 1), (1, 7, 1, 2 ^ 7 - 1, 1), (8, 14, 2 ^ 7, 2 ^ 14 - 1, 2), (15, 21, 2 ^ 14, 2 ^ 21 - 1, 3),
      (22, 28, 2 ^ 21, 2 ^ 28 - 1, 4), (29, 35, 2 ^ 28, 2 ^ 35 - 1, 5), (36, 42, 2 ^ 35, 2 ^ 42 - 1, 6),
      (43, 49, 2 ^ 42, 2 ^ 49 - 1, 7), (50, 56, 2 ^ 49, 2 ^ 56 - 1, 8), (57, 63, 2 ^ 56, 2 ^ 63 - 1, 9),
      (64, 64, 2 ^ 63, 2 ^ 64 - 1, 10)] : List (Nat × Nat × Nat × Nat × Nat)),
    ∀ u : Word, r.2.2.1 ≤ u.toNat → u.toNat ≤ r.2.2.2.1 →
      r.1 ≤ sb u ∧ sb u ≤ r.2.1 ∧ length u = r.2.2.2.2

/-- R87: the compact formula over the count of significant bits. -/
def Obligations.CompactLengthFormula : Prop :=
  ∀ u : Word, length u = ((if sb u = 0 then 7 else 6) + sb u) / 7 ∧ (if sb u = 0 then 7 else 6) + sb u ≤ 70

/-- R89: `length` is one more than the number of shifts of the encode loop. -/
def Obligations.LengthCountsTheShifts : Prop :=
  ∀ (u : Word) (fuel : Nat), 9 ≤ fuel → length u = 1 + shiftCount fuel u ∧ length u = (enc u).length

/-! ### The wire format and the codec functions -/

/-- R95: the encode loop, without a bound (the model's nine turns are always enough), and its closed form; R57, R58: the
bytes of an encoding, field by field. -/
def Obligations.EncodeLoopAndWireFormat : Prop :=
  ∀ u : Word,
    (127 < u.toNat → ∃ b : Byte, b.toNat = 128 + u.toNat % 128 ∧ enc u = b :: enc (u >>> 7)) ∧
    (u.toNat ≤ 127 → ∃ b : Byte, b.toNat = u.toNat ∧ enc u = [b]) ∧
    (enc u).length = length u ∧ 1 ≤ (enc u).length ∧ (enc u).length ≤ 10 ∧
    ∀ i b, (enc u)[i]? = some b →
      b.toNat % 128 = u.toNat / 2 ^ (7 * i) % 128 ∧ (128 ≤ b.toNat ↔ i + 1 < (enc u).length)

/-- R61: the canonical sequences are exactly the encodings, each of the value it decodes to. -/
def Obligations.CanonicalSequencesAreEncodings : Prop :=
  (∀ u : Word, canonical (enc u) = true) ∧
  ∀ L : List Byte, canonical L = true → ∃ u, dec L = .ok u L.length ∧ L = enc u

/-- R145: decoding an encoding gives the value back and consumes exactly its bytes, whatever follows. -/
def Obligations.UnsignedRoundTrip : Prop :=
  ∀ (u : Word) (T : List Byte), dec (enc u ++ T) = .ok u (length u)

/-- R146: the signed round trip. -/
def Obligations.SignedRoundTrip : Prop :=
  ∀ (a : Word) (T : List Byte), ∃ v k, dec (enc (unsign a) ++ T) = .ok v k ∧ sign v = a

/-- R148: an encoding is the shortest of the sequences without payload bits at positions from 64 on that decode to its value:
every other one is longer; and it has as many bytes as `length` says. -/
def Obligations.EncodingIsMinimal : Prop :=
  ∀ u : Word, dec (enc u) = .ok u (enc u).length ∧ payloadSum (enc u) < 2 ^ 64 ∧ (enc u).length = length u ∧
    ∀ L : List Byte, dec L = .ok u L.length → payloadSum L < 2 ^ 64 → L = enc u ∨ (enc u).length < L.length

/-- R149: any sequence of encodings, packed, decodes value by value; the signed form too. -/
def Obligations.PackedEncodingsDecodeInOrder : Prop :=
  (∀ (us : List Word) (T : List Byte), decMany us.length (us.flatMap enc ++ T) = some (us, T)) ∧
  ∀ (as : List Word) (T : List Byte), ∃ vs,
    decMany as.length (as.flatMap (fun a => enc (unsign a)) ++ T) = some (vs, T) ∧ vs.map sign = as

/-- R150, R151: encoding is injective, for signed values too, and no encoding is a prefix of another's. -/
def Obligations.EncodingsArePrefixFree : Prop :=
  (∀ u v : Word, enc u <+: enc v → u = v) ∧ (∀ a b : Word, enc (unsign a) = enc (unsign b) → a = b)

/-- R110, R116: the value of a terminated sequence is the sum of its payloads modulo `2^64`, with no limit on its length;
without a terminating byte there is none. -/
def Obligations.DecodedValueIsThePayloadSum : Prop :=
  (∀ (pre : List Byte) (last : Byte) (T : List Byte), (∀ b ∈ pre, 128 ≤ b.toNat) → last.toNat < 128 →
    dec (pre ++ last :: T) = .ok (BitVec.ofNat 64 (payloadSum (pre ++ [last]))) (pre.length + 1)) ∧
  ∀ S : List Byte, (∀ b ∈ S, 128 ≤ b.toNat) → dec S = .underflow

/-- R117: zero groups on top of a terminated sequence are consumed and add nothing; so `dec` is not injective on arbitrary
inputs. -/
def Obligations.PaddingAddsNothing : Prop :=
  (∀ (L : List Byte) (v : Word) (n : Nat) (T : List Byte), terminated L = true → dec L = .ok v L.length →
    dec (padded L n ++ T) = .ok v (L.length + n + 1)) ∧
  dec [0x80, 0x00] = .ok 0 2 ∧ dec [0xE8, 0x87, 0x00] = .ok 1000 3 ∧ dec [0xE8, 0x07] = .ok 1000 2

/-! ### The zigzag transform -/

/-- R2: a word and the signed integer it stands for. -/
def Obligations.TwosComplement : Prop :=
  (∀ r : Word, (r.toNat < 2 ^ 63 → signed r = r.toNat) ∧ (2 ^ 63 ≤ r.toNat → signed r = (r.toNat : Int) - 2 ^ 64) ∧
    -(2 ^ 63) ≤ signed r ∧ signed r < 2 ^ 63 ∧ twos (signed r) = r) ∧
  ∀ z : Int, -(2 ^ 63) ≤ z → z < 2 ^ 63 → signed (twos z) = z

/-- R125, R126: the hardware form of `unsign`, over the integers and bit for bit. -/
def Obligations.UnsignIsTheZigzagMap : Prop :=
  ∀ a : Word, ((unsign a).toNat : Int) = unsignInt (signed a) ∧
    (unsign a).getLsbD 0 = a.getLsbD 63 ∧
    ∀ i, 1 ≤ i → i ≤ 63 → (unsign a).getLsbD i = (a.getLsbD (i - 1) ^^ a.getLsbD 63)

/-- R127, R128: the hardware form of `sign`, over the integers and bit for bit. -/
def Obligations.SignIsTheInverseMap : Prop :=
  ∀ u : Word, signed (sign u) = signInt u.toNat ∧
    (sign u).getLsbD 63 = u.getLsbD 0 ∧
    ∀ i, i ≤ 62 → (sign u).getLsbD i = (u.getLsbD (i + 1) ^^ u.getLsbD 0)

/-- R129: `unsign` and `sign` are inverse bijections. -/
def Obligations.ZigzagMapsAreInverse : Prop :=
  (∀ a : Word, sign (unsign a) = a) ∧ ∀ u : Word, unsign (sign u) = u

/-! ### Rules of the whole machine -/

/-- The invariant holds after reset (R29). -/
def Obligations.ResetMeetsInvariant : Prop := State.reset.Inv

/-- Every step keeps the invariant: `ST ≠ 3` (R21), `XCODE = 0` unless `EXT` (R22), a busy core runs a streaming command
(R78), the count bounds of R17 and R101, the decoder's registers of R119, byte counts with `res[63:4] = 0` (R56), and only
the outcomes of R160. -/
def Obligations.StepKeepsInvariant : Prop :=
  ∀ s t : State, s.Inv → step s = .next t → t.Inv

/-- Exactly when a step stops: the source drives `src_kind = 3` during a request, or a pure opcode stands in `OP` while busy
(the model's treatment of U6 and of R78's unreachable case; log 6, 7). With the invariant only the first is left. Nothing is
ever refused. -/
def Obligations.StepStopsOnlyOnReservedKind : Prop :=
  (∀ s : State, (∃ f, step s = .fault f) ↔
    s.nextIn.rst = false ∧ s.busy = true ∧
      (isStreamingOp s.op = false ∨ isDecoderOp s.op = true ∧ ∃ d, s.nextIn.srcDrive = .reserved d)) ∧
  (∀ (s : State) (r : Refusal), step s ≠ .refused r) ∧
  ∀ s : State, s.Inv → (s.srcReq = true → s.nextIn.legal = true) → ∃ t, step s = .next t

/-- R14: `BUSY` is set only by the acceptance of a streaming command and cleared only by a completion or by reset. -/
def Obligations.BusyChangesOnlyByRule : Prop :=
  ∀ s t : State, step s = .next t →
    (s.busy = false → t.busy = true → ∃ i, s.nextIn.accepts i ∧ pureResult i = none) ∧
    (s.busy = true → t.busy = false →
      s.nextIn.rst = true ∨ ∃ o, t.outcomes = s.outcomes ++ [o] ∧ t.observe = some o)

/-- The result registers are written only at a completion and at reset (10_state.md section 3; R190, R191). -/
def Obligations.ResultRegistersChangeOnlyAtCompletion : Prop :=
  ∀ s t : State, step s = .next t → s.nextIn.rst = false →
    (t.outcomes = s.outcomes ∧ t.res = s.res ∧ t.st = s.st ∧ t.xcode = s.xcode) ∨
    (t.busy = false ∧ ∃ o, t.outcomes = s.outcomes ++ [o] ∧ t.observe = some o)

/-- R161, R163, R164: an operation ends with `UNDERFLOW` only when a decode's request is answered `Empty`, with `EXT` only
when the sink of an encode or the source of a decode answers `XErr`, whose code is copied unchanged, and otherwise with `OK`. -/
def Obligations.EveryFailureHasItsCause : Prop :=
  ∀ (s t : State) (o : HostOutcome), step s = .next t → t.outcomes = s.outcomes ++ [o] →
    (o.st = 0 ∨ o.st = 1 ∨ o.st = 2) ∧
    (o.st = 1 ↔ s.nextIn.rst = false ∧ s.srcReq = true ∧
      (s.nextIn.srcDrive = .empty ∨ s.nextIn.srcDrive = .serve ∧ s.seen.src = [])) ∧
    (o.st = 2 ↔ s.nextIn.rst = false ∧
      (s.snkValid = true ∧ s.nextIn.snkReady = true ∧ s.nextIn.snkErr = true ∨
        s.srcReq = true ∧ ∃ c, s.nextIn.srcDrive = .fail c)) ∧
    (o.st = 2 → s.snkValid = true → o.xcode = s.nextIn.snkCode) ∧
    (o.st = 2 → s.srcReq = true → s.nextIn.srcDrive = .fail o.xcode) ∧
    (o.st ≠ 2 → o.xcode = 0)

/-- Which step touches which stream, and by how much (20_memory.md sections 1, 4; R36, R37, R44): the sink only while
`snk_valid = 1`, the source only while `src_req = 1`, never both, and the source by at most one byte, its next. -/
def Obligations.StreamsMoveOnlyThroughTheirPorts : Prop :=
  ∀ s t : State, step s = .next t →
    (s.snkValid = false ∨ s.nextIn.rst = true ∨ s.nextIn.snkReady = false → t.snk = s.seen.snk) ∧
    (s.snkValid = true → s.nextIn.snkErr = false →
      t.snk = s.snk ∨ t.snk = s.snk ++ [s.snkData]) ∧
    (s.srcReq = false → t.src = s.seen.src ∧ t.srcCur = s.srcCur) ∧
    (t.src = s.seen.src ∧ t.srcCur = s.srcCur ∨ ∃ b, s.seen.src = b :: t.src ∧ t.srcCur = s.srcCur + 1)

/-- R27, R28: the sink's inputs are ignored while `snk_valid = 0`, the source's while `src_req = 0`. -/
def Obligations.IdlePortsAreIgnored : Prop :=
  ∀ (s : State) (e : EdgeIn) (es : List EdgeIn),
    (s.snkValid = false → ∀ (r x : Bool) (c : Byte) (kept : List Byte),
      step { s with inputs := { e with snkReady := r, snkErr := x, snkCode := c, snkKept := kept } :: es } =
        step { s with inputs := e :: es }) ∧
    (s.srcReq = false → ∀ d : SrcDrive,
      step { s with inputs := { e with srcDrive := d } :: es } = step { s with inputs := e :: es })

/-- R101 with R96 and R133: an encode whose sink acknowledges `length(u)` offers, with any stalls between them and anything
on the command port, puts exactly `enc(u)` and completes with `RES = length(u)`. The length of the run is that of the given
edges and says nothing of time (R197, log 12). -/
def Obligations.EncodeRunPutsTheEncoding : Prop :=
  ∀ (s : State) (i : Instr) (u : Word) (a : EdgeIn) (es rest : List EdgeIn),
    s.busy = false → s.inputs = a :: es ++ rest → a.accepts i → (i = .enc u ∨ ∃ w, i = .senc w ∧ u = unsign w) →
    (∀ e ∈ es, e.sinkWorks = true) → es.countP (·.snkReady) = length u → es.getLast?.any (·.snkReady) = true →
    ∃ t, run (es.length + 1) s = .next t ∧
      t.busy = false ∧ t.snk = s.seen.snk ++ enc u ∧ t.res = BitVec.ofNat 64 (length u) ∧ t.st = 0 ∧ t.xcode = 0 ∧
      t.cnt.toNat = length u ∧ t.pc = s.pc + 1 ∧ t.inputs = rest ∧
      t.outcomes = s.outcomes ++ [⟨some (BitVec.ofNat 64 (length u)), 0, 0⟩] ∧
      t.src = s.seen.src ++ arrivals es ∧ t.srcCur = s.srcCur ∧ t.acc = s.acc ∧ t.fac = s.fac ∧ t.draws = s.draws

/-- R118 with R111 and R134: a decode of a source whose bytes, those it holds and those that arrive while the decode runs,
decode to `v` in `k` bytes, with any stalls and never served when it has none left, completes with `v` (or `sign(v)`) and leaves
the cursor just after the `k`-th byte. The length of the run is that of the given edges and says nothing of time (R197, log 12). -/
def Obligations.DecodeRunReturnsTheValue : Prop :=
  ∀ (s : State) (i : Instr) (v r : Word) (k : Nat) (a : EdgeIn) (es rest : List EdgeIn),
    s.busy = false → s.inputs = a :: es ++ rest → a.accepts i → (i = .dec ∧ r = v ∨ i = .sdec ∧ r = sign v) →
    dec (s.seen.src ++ arrivals es) = .ok v k →
    (∀ n, (es.take n).countP (·.srcDrive == .serve) ≤ (s.seen.src ++ arrivals (es.take n)).length) →
    (∀ e ∈ es, e.sourceWorks = true) → es.countP (·.srcDrive == .serve) = k →
    es.getLast?.any (·.srcDrive == .serve) = true →
    ∃ t, run (es.length + 1) s = .next t ∧
      t.busy = false ∧ t.res = r ∧ t.st = 0 ∧ t.xcode = 0 ∧ t.srcCur = s.srcCur + k ∧
      t.src = (s.seen.src ++ arrivals es).drop k ∧ t.snk = s.seen.snk ∧ t.pc = s.pc + 1 ∧ t.inputs = rest ∧
      t.outcomes = s.outcomes ++ [⟨some r, 0, 0⟩] ∧ t.rem = s.rem ∧ t.cnt = s.cnt ∧ t.draws = s.draws

/-- R43, R145, R146 in command terms: an encode of `u`, then a decode of a source that has received exactly the bytes of that
encoding and some tail `T` (the loop-back of R42), gives `u` back (or the signed value), and leaves the tail. The length of the
run says nothing of time (R197, log 12). -/
def Obligations.LoopBackReturnsTheValue : Prop :=
  ∀ (s : State) (i j : Instr) (u r : Word) (T : List Byte) (a d : EdgeIn) (es fs rest : List EdgeIn),
    s.busy = false → s.inputs = (a :: es) ++ (d :: fs) ++ rest →
    a.accepts i → (i = .enc u ∨ ∃ w, i = .senc w ∧ u = unsign w) →
    (∀ e ∈ es, e.sinkWorks = true) → es.countP (·.snkReady) = length u → es.getLast?.any (·.snkReady) = true →
    s.seen.src = [] → d.hostSrc = none → arrivals (es ++ [d]) = enc u ++ T →
    d.accepts j → (j = .dec ∧ r = u ∨ j = .sdec ∧ r = sign u) →
    (∀ e ∈ fs, e.sourceWorks = true) → fs.countP (·.srcDrive == .serve) = length u →
    fs.getLast?.any (·.srcDrive == .serve) = true →
    ∃ t, run (es.length + 1 + (fs.length + 1)) s = .next t ∧ t.busy = false ∧ t.inputs = rest ∧ t.pc = s.pc + 2 ∧
      t.snk = d.hostSnk.getD (s.seen.snk ++ enc u) ∧ t.src = T ++ arrivals fs ∧ t.srcCur = s.srcCur + length u ∧
      t.outcomes = s.outcomes ++ [⟨some (BitVec.ofNat 64 (length u)), 0, 0⟩, ⟨some r, 0, 0⟩]

/-- R161, R167: a decode of a source that runs out before a terminating byte consumes every byte and ends with `UNDERFLOW`;
the core is idle again (R162). The length of the run says nothing of time (R197, log 12). -/
def Obligations.DecodeRunUnderflows : Prop :=
  ∀ (s : State) (i : Instr) (a : EdgeIn) (es rest : List EdgeIn),
    s.busy = false → s.inputs = a :: es ++ rest → a.accepts i → (i = .dec ∨ i = .sdec) →
    dec s.seen.src = .underflow → arrivals es = [] →
    (∀ e ∈ es, e.sourceWorks = true) → es.countP (·.srcDrive == .serve) = s.seen.src.length + 1 →
    es.getLast?.any (·.srcDrive == .serve) = true →
    ∃ t, run (es.length + 1) s = .next t ∧
      t.busy = false ∧ t.cmdReady = true ∧ t.st = 1 ∧ t.xcode = 0 ∧ t.src = [] ∧
      t.srcCur = s.srcCur + s.seen.src.length ∧ t.snk = s.seen.snk ∧ t.inputs = rest ∧
      t.outcomes = s.outcomes ++ [⟨none, 1, 0⟩]

/-- R23: the outcomes, the streams, the control state and the handshake outputs of a run from an idle core do not depend on what
any register held; nor, once the run has reported an outcome, does what the host may read on the result port. -/
def Obligations.OutcomesDoNotDependOnOldRegisters : Prop :=
  ∀ (s s' : State) (n : Nat), s.busy = false → s'.busy = false →
    s'.snk = s.snk → s'.src = s.src → s'.srcCur = s.srcCur → s'.pc = s.pc → s'.outcomes = s.outcomes →
    s'.inputs = s.inputs →
    match run n s, run n s' with
    | .next t, .next t' => t'.final = t.final ∧ t'.busy = t.busy ∧ t'.pc = t.pc ∧ t'.srcCur = t.srcCur ∧
        t'.snkValid = t.snkValid ∧ t'.srcReq = t.srcReq ∧ (t.snkValid = true → t'.snkData = t.snkData) ∧
        (t.outcomes ≠ s.outcomes → t'.observe = t.observe)
    | .fault f, .fault f' => f' = f
    | _, _ => False
end

