-- ==== Sys2Proof/Laws/Assembler.lean ====
section
/-! SUPPORT. What the range checks of the assembler say of an operand's value (R65; log 15). -/

namespace Sys2Proof

/-- An unsigned operand is in range exactly when its value fits the 64 bits of the argument. -/
theorem UOperand.wf_iff_value (o : UOperand) : o.wf = true ↔ o.value < 2 ^ 64 := by
  cases o with
  | dec n => simp only [UOperand.wf, UOperand.value, decide_eq_true_eq]
  | hex n => simp only [UOperand.wf, UOperand.value, decide_eq_true_eq]
  | pow k =>
    simp only [UOperand.wf, UOperand.value, decide_eq_true_eq]
    exact (Nat.pow_lt_pow_iff_right (by omega)).symm
  | powMinusOne k =>
    have pos : 0 < 2 ^ k := Nat.two_pow_pos k
    have mono : 2 ^ k ≤ 2 ^ 64 ↔ k ≤ 64 := Nat.pow_le_pow_iff_right (by omega)
    simp only [UOperand.wf, UOperand.value, decide_eq_true_eq]
    omega

/-- A signed decimal operand is in range exactly when its value is a 64-bit signed integer. -/
theorem SOperand.wf_dec_iff (z : Int) : (SOperand.dec z).wf = true ↔ -(2 ^ 63) ≤ z ∧ z < 2 ^ 63 := by
  simp only [SOperand.wf, inSignedRange, decide_eq_true_eq]

/-- A hexadecimal pattern is in range exactly when it fits 64 bits. -/
theorem SOperand.wf_hex_iff (n : Nat) : (SOperand.hex n).wf = true ↔ n < 2 ^ 64 := by
  simp only [SOperand.wf, decide_eq_true_eq]

/-- The argument of an operand in range has the operand's value. -/
theorem UOperand.word_toNat {o : UOperand} (h : o.value < 2 ^ 64) : o.word.toNat = o.value := by
  rw [UOperand.word, BitVec.toNat_ofNat, Nat.mod_eq_of_lt h]

end Sys2Proof
end

