-- ==== Sys2Proof/Laws/State.lean ====
section
/-! SUPPORT. One lemma per field per update of the state, so that no proof unfolds a record update. -/

namespace Sys2Proof.Machine

variable (s : State)

@[simp] theorem State.resetRegs_busy : s.resetRegs.busy = false := rfl
@[simp] theorem State.resetRegs_op : s.resetRegs.op = 0 := rfl
@[simp] theorem State.resetRegs_rem : s.resetRegs.rem = 0 := rfl
@[simp] theorem State.resetRegs_cnt : s.resetRegs.cnt = 0 := rfl
@[simp] theorem State.resetRegs_acc : s.resetRegs.acc = 0 := rfl
@[simp] theorem State.resetRegs_fac : s.resetRegs.fac = 0 := rfl
@[simp] theorem State.resetRegs_res : s.resetRegs.res = 0 := rfl
@[simp] theorem State.resetRegs_st : s.resetRegs.st = 0 := rfl
@[simp] theorem State.resetRegs_xcode : s.resetRegs.xcode = 0 := rfl
@[simp] theorem State.resetRegs_snk : s.resetRegs.snk = s.snk := rfl
@[simp] theorem State.resetRegs_src : s.resetRegs.src = s.src := rfl
@[simp] theorem State.resetRegs_srcCur : s.resetRegs.srcCur = s.srcCur := rfl
@[simp] theorem State.resetRegs_pc : s.resetRegs.pc = s.pc := rfl
@[simp] theorem State.resetRegs_outcomes : s.resetRegs.outcomes = s.outcomes := rfl
@[simp] theorem State.resetRegs_inputs : s.resetRegs.inputs = s.inputs := rfl
@[simp] theorem State.resetRegs_draws : s.resetRegs.draws = s.draws := rfl

@[simp] theorem State.accept_busy (o : Opcode) : (s.accept o).busy = s.busy := rfl
@[simp] theorem State.accept_op (o : Opcode) : (s.accept o).op = o := rfl
@[simp] theorem State.accept_rem (o : Opcode) : (s.accept o).rem = s.rem := rfl
@[simp] theorem State.accept_cnt (o : Opcode) : (s.accept o).cnt = s.cnt := rfl
@[simp] theorem State.accept_acc (o : Opcode) : (s.accept o).acc = s.acc := rfl
@[simp] theorem State.accept_fac (o : Opcode) : (s.accept o).fac = s.fac := rfl
@[simp] theorem State.accept_res (o : Opcode) : (s.accept o).res = s.res := rfl
@[simp] theorem State.accept_st (o : Opcode) : (s.accept o).st = s.st := rfl
@[simp] theorem State.accept_xcode (o : Opcode) : (s.accept o).xcode = s.xcode := rfl
@[simp] theorem State.accept_snk (o : Opcode) : (s.accept o).snk = s.snk := rfl
@[simp] theorem State.accept_src (o : Opcode) : (s.accept o).src = s.src := rfl
@[simp] theorem State.accept_srcCur (o : Opcode) : (s.accept o).srcCur = s.srcCur := rfl
@[simp] theorem State.accept_pc (o : Opcode) : (s.accept o).pc = s.pc + 1 := rfl
@[simp] theorem State.accept_outcomes (o : Opcode) : (s.accept o).outcomes = s.outcomes := rfl
@[simp] theorem State.accept_inputs (o : Opcode) : (s.accept o).inputs = s.inputs := rfl
@[simp] theorem State.accept_draws (o : Opcode) : (s.accept o).draws = s.draws := rfl

@[simp] theorem State.complete_busy (v : Word) : (s.complete v).busy = false := rfl
@[simp] theorem State.complete_op (v : Word) : (s.complete v).op = s.op := rfl
@[simp] theorem State.complete_rem (v : Word) : (s.complete v).rem = s.rem := rfl
@[simp] theorem State.complete_cnt (v : Word) : (s.complete v).cnt = s.cnt := rfl
@[simp] theorem State.complete_acc (v : Word) : (s.complete v).acc = s.acc := rfl
@[simp] theorem State.complete_fac (v : Word) : (s.complete v).fac = s.fac := rfl
@[simp] theorem State.complete_res (v : Word) : (s.complete v).res = v := rfl
@[simp] theorem State.complete_st (v : Word) : (s.complete v).st = stOk := rfl
@[simp] theorem State.complete_xcode (v : Word) : (s.complete v).xcode = 0 := rfl
@[simp] theorem State.complete_snk (v : Word) : (s.complete v).snk = s.snk := rfl
@[simp] theorem State.complete_src (v : Word) : (s.complete v).src = s.src := rfl
@[simp] theorem State.complete_srcCur (v : Word) : (s.complete v).srcCur = s.srcCur := rfl
@[simp] theorem State.complete_pc (v : Word) : (s.complete v).pc = s.pc := rfl
@[simp] theorem State.complete_outcomes (v : Word) : (s.complete v).outcomes = s.outcomes ++ [⟨some v, stOk, 0⟩] := rfl
@[simp] theorem State.complete_inputs (v : Word) : (s.complete v).inputs = s.inputs := rfl
@[simp] theorem State.complete_draws (v : Word) : (s.complete v).draws = s.draws := rfl

@[simp] theorem State.failCompletion_busy (c : BitVec 2) (x : Byte) : (s.failCompletion c x).busy = false := rfl
@[simp] theorem State.failCompletion_op (c : BitVec 2) (x : Byte) : (s.failCompletion c x).op = s.op := rfl
@[simp] theorem State.failCompletion_rem (c : BitVec 2) (x : Byte) : (s.failCompletion c x).rem = s.rem := rfl
@[simp] theorem State.failCompletion_cnt (c : BitVec 2) (x : Byte) : (s.failCompletion c x).cnt = s.cnt := rfl
@[simp] theorem State.failCompletion_acc (c : BitVec 2) (x : Byte) : (s.failCompletion c x).acc = s.acc := rfl
@[simp] theorem State.failCompletion_fac (c : BitVec 2) (x : Byte) : (s.failCompletion c x).fac = s.fac := rfl
@[simp] theorem State.failCompletion_res (c : BitVec 2) (x : Byte) : (s.failCompletion c x).res = Config.freeRes s.draws := rfl
@[simp] theorem State.failCompletion_st (c : BitVec 2) (x : Byte) : (s.failCompletion c x).st = c := rfl
@[simp] theorem State.failCompletion_xcode (c : BitVec 2) (x : Byte) : (s.failCompletion c x).xcode = x := rfl
@[simp] theorem State.failCompletion_snk (c : BitVec 2) (x : Byte) : (s.failCompletion c x).snk = s.snk := rfl
@[simp] theorem State.failCompletion_src (c : BitVec 2) (x : Byte) : (s.failCompletion c x).src = s.src := rfl
@[simp] theorem State.failCompletion_srcCur (c : BitVec 2) (x : Byte) : (s.failCompletion c x).srcCur = s.srcCur := rfl
@[simp] theorem State.failCompletion_pc (c : BitVec 2) (x : Byte) : (s.failCompletion c x).pc = s.pc := rfl
@[simp] theorem State.failCompletion_outcomes (c : BitVec 2) (x : Byte) : (s.failCompletion c x).outcomes = s.outcomes ++ [⟨none, c, x⟩] := rfl
@[simp] theorem State.failCompletion_inputs (c : BitVec 2) (x : Byte) : (s.failCompletion c x).inputs = s.inputs := rfl
@[simp] theorem State.failCompletion_draws (c : BitVec 2) (x : Byte) : (s.failCompletion c x).draws = s.draws + 1 := rfl

@[simp] theorem State.startEncode_busy (v : Word) : (s.startEncode v).busy = true := rfl
@[simp] theorem State.startEncode_op (v : Word) : (s.startEncode v).op = s.op := rfl
@[simp] theorem State.startEncode_rem (v : Word) : (s.startEncode v).rem = v := rfl
@[simp] theorem State.startEncode_cnt (v : Word) : (s.startEncode v).cnt = 0 := rfl
@[simp] theorem State.startEncode_acc (v : Word) : (s.startEncode v).acc = s.acc := rfl
@[simp] theorem State.startEncode_fac (v : Word) : (s.startEncode v).fac = s.fac := rfl
@[simp] theorem State.startEncode_res (v : Word) : (s.startEncode v).res = s.res := rfl
@[simp] theorem State.startEncode_st (v : Word) : (s.startEncode v).st = s.st := rfl
@[simp] theorem State.startEncode_xcode (v : Word) : (s.startEncode v).xcode = s.xcode := rfl
@[simp] theorem State.startEncode_snk (v : Word) : (s.startEncode v).snk = s.snk := rfl
@[simp] theorem State.startEncode_src (v : Word) : (s.startEncode v).src = s.src := rfl
@[simp] theorem State.startEncode_srcCur (v : Word) : (s.startEncode v).srcCur = s.srcCur := rfl
@[simp] theorem State.startEncode_pc (v : Word) : (s.startEncode v).pc = s.pc := rfl
@[simp] theorem State.startEncode_outcomes (v : Word) : (s.startEncode v).outcomes = s.outcomes := rfl
@[simp] theorem State.startEncode_inputs (v : Word) : (s.startEncode v).inputs = s.inputs := rfl
@[simp] theorem State.startEncode_draws (v : Word) : (s.startEncode v).draws = s.draws := rfl

@[simp] theorem State.startDecode_busy : s.startDecode.busy = true := rfl
@[simp] theorem State.startDecode_op : s.startDecode.op = s.op := rfl
@[simp] theorem State.startDecode_rem : s.startDecode.rem = s.rem := rfl
@[simp] theorem State.startDecode_cnt : s.startDecode.cnt = s.cnt := rfl
@[simp] theorem State.startDecode_acc : s.startDecode.acc = 0 := rfl
@[simp] theorem State.startDecode_fac : s.startDecode.fac = 1 := rfl
@[simp] theorem State.startDecode_res : s.startDecode.res = s.res := rfl
@[simp] theorem State.startDecode_st : s.startDecode.st = s.st := rfl
@[simp] theorem State.startDecode_xcode : s.startDecode.xcode = s.xcode := rfl
@[simp] theorem State.startDecode_snk : s.startDecode.snk = s.snk := rfl
@[simp] theorem State.startDecode_src : s.startDecode.src = s.src := rfl
@[simp] theorem State.startDecode_srcCur : s.startDecode.srcCur = s.srcCur := rfl
@[simp] theorem State.startDecode_pc : s.startDecode.pc = s.pc := rfl
@[simp] theorem State.startDecode_outcomes : s.startDecode.outcomes = s.outcomes := rfl
@[simp] theorem State.startDecode_inputs : s.startDecode.inputs = s.inputs := rfl
@[simp] theorem State.startDecode_draws : s.startDecode.draws = s.draws := rfl

@[simp] theorem State.accumulate_busy (b : Byte) : (s.accumulate b).busy = s.busy := rfl
@[simp] theorem State.accumulate_op (b : Byte) : (s.accumulate b).op = s.op := rfl
@[simp] theorem State.accumulate_rem (b : Byte) : (s.accumulate b).rem = s.rem := rfl
@[simp] theorem State.accumulate_cnt (b : Byte) : (s.accumulate b).cnt = s.cnt := rfl
@[simp] theorem State.accumulate_acc (b : Byte) : (s.accumulate b).acc = s.acc + s.fac * payload b := rfl
@[simp] theorem State.accumulate_fac (b : Byte) : (s.accumulate b).fac = s.fac <<< 7 := rfl
@[simp] theorem State.accumulate_res (b : Byte) : (s.accumulate b).res = s.res := rfl
@[simp] theorem State.accumulate_st (b : Byte) : (s.accumulate b).st = s.st := rfl
@[simp] theorem State.accumulate_xcode (b : Byte) : (s.accumulate b).xcode = s.xcode := rfl
@[simp] theorem State.accumulate_snk (b : Byte) : (s.accumulate b).snk = s.snk := rfl
@[simp] theorem State.accumulate_src (b : Byte) : (s.accumulate b).src = s.src := rfl
@[simp] theorem State.accumulate_srcCur (b : Byte) : (s.accumulate b).srcCur = s.srcCur := rfl
@[simp] theorem State.accumulate_pc (b : Byte) : (s.accumulate b).pc = s.pc := rfl
@[simp] theorem State.accumulate_outcomes (b : Byte) : (s.accumulate b).outcomes = s.outcomes := rfl
@[simp] theorem State.accumulate_inputs (b : Byte) : (s.accumulate b).inputs = s.inputs := rfl
@[simp] theorem State.accumulate_draws (b : Byte) : (s.accumulate b).draws = s.draws := rfl

@[simp] theorem State.present_busy (e : EdgeIn) : (s.present e).busy = s.busy := rfl
@[simp] theorem State.present_op (e : EdgeIn) : (s.present e).op = s.op := rfl
@[simp] theorem State.present_rem (e : EdgeIn) : (s.present e).rem = s.rem := rfl
@[simp] theorem State.present_cnt (e : EdgeIn) : (s.present e).cnt = s.cnt := rfl
@[simp] theorem State.present_acc (e : EdgeIn) : (s.present e).acc = s.acc := rfl
@[simp] theorem State.present_fac (e : EdgeIn) : (s.present e).fac = s.fac := rfl
@[simp] theorem State.present_res (e : EdgeIn) : (s.present e).res = s.res := rfl
@[simp] theorem State.present_st (e : EdgeIn) : (s.present e).st = s.st := rfl
@[simp] theorem State.present_xcode (e : EdgeIn) : (s.present e).xcode = s.xcode := rfl
@[simp] theorem State.present_snk (e : EdgeIn) : (s.present e).snk = if s.busy then s.snk else e.hostSnk.getD s.snk := rfl
@[simp] theorem State.present_src (e : EdgeIn) : (s.present e).src = (if s.busy then s.src else e.hostSrc.getD s.src) ++ e.srcArrive := rfl
@[simp] theorem State.present_srcCur (e : EdgeIn) : (s.present e).srcCur = s.srcCur := rfl
@[simp] theorem State.present_pc (e : EdgeIn) : (s.present e).pc = s.pc := rfl
@[simp] theorem State.present_outcomes (e : EdgeIn) : (s.present e).outcomes = s.outcomes := rfl
@[simp] theorem State.present_inputs (e : EdgeIn) : (s.present e).inputs = s.inputs.tail := rfl
@[simp] theorem State.present_draws (e : EdgeIn) : (s.present e).draws = s.draws := rfl

@[simp] theorem State.raiseUnderflow_eq : s.raiseUnderflow = s.failCompletion stUnderflow 0 := rfl
@[simp] theorem State.raiseExternal_eq (c : Byte) : s.raiseExternal c = s.failCompletion stExt c := rfl

end Sys2Proof.Machine
end

