-- ==== Sys2Proof/Laws/Ops.lean ====
section
/-! SUPPORT. What each shared operation does, said once: acceptance, the two stream primitives, the encoder and decoder steps. -/

namespace Sys2Proof.Machine

theorem opcode_cases (o : Opcode) :
    o = 0 ∨ o = 1 ∨ o = 2 ∨ o = 3 ∨ o = 4 ∨ o = 5 ∨ o = 6 ∨ o = 7 := by
  revert o; decide

theorem isEncoderOp_iff (o : Opcode) : isEncoderOp o = true ↔ o = 1 ∨ o = 5 := by
  revert o; decide

theorem isDecoderOp_iff (o : Opcode) : isDecoderOp o = true ↔ o = 2 ∨ o = 6 := by
  revert o; decide

theorem not_encoder_of_decoder {o : Opcode} (h : isDecoderOp o = true) : isEncoderOp o = false := by
  revert o; decide

theorem not_decoder_of_encoder {o : Opcode} (h : isEncoderOp o = true) : isDecoderOp o = false := by
  revert o; decide

theorem isLast_iff (r : Word) : isLast r = true ↔ r.toNat ≤ 127 := by
  simp [isLast, moreGroups, BitVec.lt_def]

theorem moreGroups_iff (r : Word) : moreGroups r = true ↔ 127 < r.toNat := by
  simp [moreGroups, BitVec.lt_def]

theorem contBit_iff (b : Byte) : contBit b = true ↔ 128 ≤ b.toNat := by
  revert b; decide

@[simp] theorem State.seen_eq (s : State) : s.present s.nextIn = s.seen := rfl
@[simp] theorem State.seen_inputs (s : State) : s.seen.inputs = s.inputs.tail := rfl

theorem State.nextIn_cons (s : State) (e : EdgeIn) (es : List EdgeIn) (h : s.inputs = e :: es) : s.nextIn = e := by
  simp [State.nextIn, h]

/-- Before an edge of a busy core the environment only adds what producers add to the source. -/
theorem State.seen_of_busy (s : State) (h : s.busy = true) :
    s.seen = { s with inputs := s.inputs.tail, src := s.src ++ s.nextIn.srcArrive } := by
  simp [State.seen, State.present, h]

theorem State.offer_of_idle (s : State) (k : State → State) (h : s.busy = false) : s.offer k = .next (k s) := by
  simp [State.offer, h]

theorem State.offer_of_busy (s : State) (k : State → State) (h : s.busy = true) : s.offer k = .next s := by
  simp [State.offer, h]

/-! ### The encoder step (R97 to R100) -/

theorem encoderStep_wait (e : EdgeIn) (s : State) (h : e.snkReady = false) : encoderStep e s = .next s := by
  simp [encoderStep, State.snkPut, EdgeIn.snkAnswer, h]

theorem encoderStep_xerr (e : EdgeIn) (s : State) (h : e.snkReady = true) (hx : e.snkErr = true) :
    encoderStep e s = .next (({ s with snk := s.snk ++ e.snkKept } : State).raiseExternal e.snkCode) := by
  simp [encoderStep, State.snkPut, EdgeIn.snkAnswer, h, hx]

theorem encoderStep_more (e : EdgeIn) (s : State) (h : e.snkReady = true) (hx : e.snkErr = false)
    (hr : 127 < s.rem.toNat) :
    encoderStep e s =
      .next { s with snk := s.snk ++ [s.snkData], cnt := s.cnt + 1, rem := s.rem >>> 7 } := by
  have hl : isLast s.rem = false := by
    cases hb : isLast s.rem
    · rfl
    · have := (isLast_iff _).1 hb; omega
  simp [encoderStep, State.snkPut, EdgeIn.snkAnswer, h, hx, hl]

theorem encoderStep_last (e : EdgeIn) (s : State) (h : e.snkReady = true) (hx : e.snkErr = false)
    (hr : s.rem.toNat ≤ 127) :
    encoderStep e s =
      .next (({ s with snk := s.snk ++ [s.snkData], cnt := s.cnt + 1 } : State).complete
        ((s.cnt + 1).setWidth 64)) := by
  simp [encoderStep, State.snkPut, EdgeIn.snkAnswer, h, hx, (isLast_iff _).2 hr]

/-! ### The decoder step (R112 to R115) -/

section
variable (result : Word → Word) (e : EdgeIn) (s : State)

theorem decoderStep_stall (h : e.srcDrive = .stall) : decoderStep result e s = .next s := by
  simp [decoderStep, State.srcGet, SrcDrive.pins, SrcPins.answer, h]

theorem decoderStep_more (b : Byte) (bs : List Byte) (h : e.srcDrive = .serve) (hs : s.src = b :: bs)
    (hb : contBit b = true) :
    decoderStep result e s =
      .next (({ s with src := bs, srcCur := s.srcCur + 1 } : State).accumulate b) := by
  simp [decoderStep, State.srcGet, SrcDrive.pins, SrcPins.answer, h, hs, hb, State.accumulate]

theorem decoderStep_last (b : Byte) (bs : List Byte) (h : e.srcDrive = .serve) (hs : s.src = b :: bs)
    (hb : contBit b = false) :
    decoderStep result e s =
      .next ((({ s with src := bs, srcCur := s.srcCur + 1 } : State).accumulate b).complete
        (result (s.acc + s.fac * payload b))) := by
  simp [decoderStep, State.srcGet, SrcDrive.pins, SrcPins.answer, h, hs, hb, State.accumulate]

theorem decoderStep_empty (h : e.srcDrive = .serve ∧ s.src = [] ∨ e.srcDrive = .empty) :
    decoderStep result e s = .next s.raiseUnderflow := by
  obtain ⟨h, hs⟩ | h := h
  · simp [decoderStep, State.srcGet, SrcDrive.pins, SrcPins.answer, h, hs]
  · simp [decoderStep, State.srcGet, SrcDrive.pins, SrcPins.answer, h]

theorem decoderStep_fail (c : Byte) (h : e.srcDrive = .fail c) :
    decoderStep result e s = .next (s.raiseExternal c) := by
  simp [decoderStep, State.srcGet, SrcDrive.pins, SrcPins.answer, h]

theorem decoderStep_reserved (d : Byte) (h : e.srcDrive = .reserved d) :
    decoderStep result e s = .fault .srcKindReserved := by
  simp [decoderStep, State.srcGet, SrcDrive.pins, SrcPins.answer, h]

end

end Sys2Proof.Machine
end

