-- ==== Sys2Proof/Laws/Codec.lean ====
section
/-! SUPPORT. The small lemmas of the byte fields, the significant bits and the two loops, which turn bit operations into
arithmetic. -/

namespace Sys2Proof.Machine

theorem shr7_toNat (r : Word) : (r >>> 7).toNat = r.toNat / 128 := by
  simp [Nat.shiftRight_eq_div_pow]

theorem groupByte_true_toNat (r : Word) : (groupByte true r).toNat = 128 + r.toNat % 128 := by
  have h : ∀ b : Byte, (0x80#8 ||| (b &&& 0x7F#8)).toNat = 128 + b.toNat % 128 := by decide
  have h' := h (r.setWidth 8)
  rw [BitVec.toNat_setWidth] at h'
  simp only [groupByte, if_true, h']
  omega

theorem groupByte_false_toNat (r : Word) : (groupByte false r).toNat = r.toNat % 128 := by
  have h : ∀ b : Byte, (0x00#8 ||| (b &&& 0x7F#8)).toNat = b.toNat % 128 := by decide
  have h' := h (r.setWidth 8)
  rw [BitVec.toNat_setWidth] at h'
  have hf : ((if false = true then 0x80#8 else 0x00#8) : Byte) = 0x00#8 := rfl
  rw [groupByte, hf, h']
  omega

theorem payload_toNat (b : Byte) : (payload b).toNat = b.toNat % 128 := by
  revert b; decide

theorem contBit_false_iff (b : Byte) : contBit b = false ↔ b.toNat < 128 := by
  revert b; decide

/-- What the count of leading zeros says of the low `n` bits of a value. -/
theorem clzFrom_spec (v : Word) (n : Nat) :
    clzFrom v n ≤ n ∧ v.toNat % 2 ^ n < 2 ^ (n - clzFrom v n) ∧
      (clzFrom v n < n → 2 ^ (n - clzFrom v n - 1) ≤ v.toNat % 2 ^ n) := by
  induction n with
  | zero => simp [clzFrom, Nat.mod_one]
  | succ n ih =>
    obtain ⟨h1, h2, h3⟩ := ih
    have hbit : v.getLsbD n = v.toNat.testBit n := rfl
    have hlow : v.toNat % 2 ^ (n + 1) = v.toNat % 2 ^ n + 2 ^ n * (v.toNat.testBit n).toNat := by
      rw [Nat.testBit_eq_decide_div_mod_eq, Nat.mod_pow_succ]
      rcases Nat.mod_two_eq_zero_or_one (v.toNat / 2 ^ n) with h | h <;> simp [h]
    have hlt : v.toNat % 2 ^ n < 2 ^ n := Nat.mod_lt _ (by positivity)
    simp only [clzFrom, hbit]
    cases hc : v.toNat.testBit n
    · simp [hc] at hlow
      simpa [hlow] using ⟨h1, h2, h3⟩
    · simp [hc] at hlow
      rw [hlow]
      simp
      rw [pow_succ]
      omega

theorem payloadSum_append (a b : List Byte) :
    payloadSum (a ++ b) = payloadSum a + 2 ^ (7 * a.length) * payloadSum b := by
  induction a with
  | nil => simp [payloadSum]
  | cons x a ih => simp [payloadSum, ih]; ring

theorem payloadSum_lt (L : List Byte) : payloadSum L < 2 ^ (7 * L.length) := by
  induction L with
  | nil => simp [payloadSum]
  | cons b L ih =>
    have : b.toNat % 128 < 128 := Nat.mod_lt _ (by norm_num)
    simp only [payloadSum, payload_toNat, List.length_cons, mul_add, pow_add, mul_one]
    omega

/-- A value that fits 7 bits is one final byte, whatever turns are left. -/
theorem encLoop_small (fuel : Nat) (r : Word) (h : r.toNat ≤ 127) : encLoop fuel r = [groupByte false r] := by
  have hm : moreGroups r = false := by
    cases hb : moreGroups r
    · rfl
    · have := (moreGroups_iff r).1 hb; omega
  cases fuel <;> simp [encLoop, hm]

/-- More turns than the value needs change nothing. -/
theorem encLoop_stable (f g : Nat) (r : Word) (h : r.toNat < 2 ^ (7 * (f + 1))) (hg : f ≤ g) :
    encLoop g r = encLoop f r := by
  induction f generalizing g r with
  | zero =>
    have hr : r.toNat ≤ 127 := by simp at h; omega
    rw [encLoop_small g r hr, encLoop_small 0 r hr]
  | succ f ih =>
    obtain ⟨g, rfl⟩ : ∃ k, g = k + 1 := ⟨g - 1, by omega⟩
    simp only [encLoop]
    split
    · rw [ih g _ _ (by omega)]
      rw [shr7_toNat]
      rw [show 7 * (f + 1 + 1) = 7 * (f + 1) + 7 by ring, pow_add] at h
      omega
    · rfl

/-- Bytes after the terminating one do not matter to a decode. -/
theorem decLoop_append (S T : List Byte) (acc fac : Word) (k k' : Nat) (v : Word)
    (h : decLoop acc fac k S = .ok v k') : decLoop acc fac k (S ++ T) = .ok v k' := by
  induction S generalizing acc fac k with
  | nil => cases h
  | cons b S ih =>
    simp only [List.cons_append, decLoop] at h ⊢
    cases hc : contBit b <;> simp [hc] at h ⊢
    · exact h
    · exact ih _ _ _ h

end Sys2Proof.Machine
end

