-- ==== Sys2Proof/Laws/Encoding.lean ====
section
/-! SUPPORT. The two fields of a command word (R50): taking apart and putting together. -/

namespace Sys2Proof

@[simp] theorem cmdOp_mkCmd (o : Opcode) (a : Word) : cmdOp (mkCmd o a) = o := by
  apply BitVec.eq_of_getLsbD_eq
  intro i hi
  have h1 : ¬(64 + i < 64) := by omega
  have h2 : 64 + i - 64 = i := by omega
  simp only [cmdOp, mkCmd, BitVec.getLsbD_extractLsb', BitVec.getLsbD_append, hi, h1, h2, decide_true, Bool.true_and,
    if_false]

@[simp] theorem cmdArg_mkCmd (o : Opcode) (a : Word) : cmdArg (mkCmd o a) = a := by
  apply BitVec.eq_of_getLsbD_eq
  intro i hi
  simp only [cmdArg, mkCmd, BitVec.getLsbD_extractLsb', BitVec.getLsbD_append, Nat.zero_add, hi, decide_true,
    Bool.true_and, if_true]

theorem mkCmd_fields (w : Cmd) : mkCmd (cmdOp w) (cmdArg w) = w := by
  apply BitVec.eq_of_getLsbD_eq
  intro i hi
  simp only [cmdArg, cmdOp, mkCmd, BitVec.getLsbD_append, BitVec.getLsbD_extractLsb']
  split
  · simp [*]
  · have h1 : i - 64 < 3 := by omega
    have h2 : 64 + (i - 64) = i := by omega
    simp [h1, h2]

end Sys2Proof
end

