-- ==== Sys2Proof/Laws/PerInstr.lean ====
section
/-! SUPPORT. Facts about every command as syntax, one lemma per constructor. Family `CommandFields`: the word of a command
holds its opcode of R52 in bits 66:64 and its argument in bits 63:0 (R50), and the command is well-formed (R53). -/

namespace Sys2Proof.Laws

/-- The word of `i` holds its opcode and argument, and `i` is well-formed. -/
def CommandFields.Statement (i : Instr) : Prop :=
  cmdOp (encode i) = i.opcode ∧ cmdArg (encode i) = i.arg ∧ i.wf = true

theorem CommandFields.len (u : Word) : CommandFields.Statement (.len u) := ⟨cmdOp_mkCmd _ _, cmdArg_mkCmd _ _, rfl⟩
theorem CommandFields.enc (u : Word) : CommandFields.Statement (.enc u) := ⟨cmdOp_mkCmd _ _, cmdArg_mkCmd _ _, rfl⟩
theorem CommandFields.dec : CommandFields.Statement .dec := ⟨cmdOp_mkCmd _ _, cmdArg_mkCmd _ _, rfl⟩
theorem CommandFields.zze (s : Word) : CommandFields.Statement (.zze s) := ⟨cmdOp_mkCmd _ _, cmdArg_mkCmd _ _, rfl⟩
theorem CommandFields.slen (s : Word) : CommandFields.Statement (.slen s) := ⟨cmdOp_mkCmd _ _, cmdArg_mkCmd _ _, rfl⟩
theorem CommandFields.senc (s : Word) : CommandFields.Statement (.senc s) := ⟨cmdOp_mkCmd _ _, cmdArg_mkCmd _ _, rfl⟩
theorem CommandFields.sdec : CommandFields.Statement .sdec := ⟨cmdOp_mkCmd _ _, cmdArg_mkCmd _ _, rfl⟩
theorem CommandFields.zzd (u : Word) : CommandFields.Statement (.zzd u) := ⟨cmdOp_mkCmd _ _, cmdArg_mkCmd _ _, rfl⟩

end Sys2Proof.Laws
end

