-- ==== Sys2Proof/Laws/Step.lean ====
section
/-! SUPPORT. What one step can do, said once: the equations of `step` by control state, and the inversion of a step that
answers a next state. -/

namespace Sys2Proof.Machine

@[simp] theorem State.seen_busy (s : State) : s.seen.busy = s.busy := rfl
@[simp] theorem State.seen_op (s : State) : s.seen.op = s.op := rfl
@[simp] theorem State.seen_rem (s : State) : s.seen.rem = s.rem := rfl
@[simp] theorem State.seen_cnt (s : State) : s.seen.cnt = s.cnt := rfl
@[simp] theorem State.seen_acc (s : State) : s.seen.acc = s.acc := rfl
@[simp] theorem State.seen_fac (s : State) : s.seen.fac = s.fac := rfl
@[simp] theorem State.seen_res (s : State) : s.seen.res = s.res := rfl
@[simp] theorem State.seen_st (s : State) : s.seen.st = s.st := rfl
@[simp] theorem State.seen_xcode (s : State) : s.seen.xcode = s.xcode := rfl
@[simp] theorem State.seen_srcCur (s : State) : s.seen.srcCur = s.srcCur := rfl
@[simp] theorem State.seen_pc (s : State) : s.seen.pc = s.pc := rfl
@[simp] theorem State.seen_outcomes (s : State) : s.seen.outcomes = s.outcomes := rfl
@[simp] theorem State.seen_draws (s : State) : s.seen.draws = s.draws := rfl
@[simp] theorem State.seen_snkData (s : State) : s.seen.snkData = s.snkData := rfl

/-- How the running decode turns `ACC` into `RES` (R113). -/
def decoderResult (o : Opcode) (a : Word) : Word := if o = 6 then sign a else a

theorem busyEdge_encoder (e : EdgeIn) (s : State) (h : isEncoderOp s.op = true) : busyEdge e s = encoderStep e s := by
  obtain h | h := (isEncoderOp_iff _).1 h <;> simp [busyEdge, h, runEnc, runSenc]

theorem busyEdge_decoder (e : EdgeIn) (s : State) (h : isDecoderOp s.op = true) :
    busyEdge e s = decoderStep (decoderResult s.op) e s := by
  obtain h | h := (isDecoderOp_iff _).1 h <;> simp [busyEdge, h, runDec, runSdec] <;> rfl

theorem busyEdge_pure (e : EdgeIn) (s : State) (h : isStreamingOp s.op = false) :
    busyEdge e s = .fault .busyWithPureOp := by
  obtain h' | h' | h' | h' | h' | h' | h' | h' := opcode_cases s.op <;>
    simp [h', isStreamingOp, isEncoderOp, isDecoderOp] at h <;> simp [busyEdge, h']

theorem step_reset (s : State) (h : s.nextIn.rst = true) : step s = .next s.seen.resetRegs := by
  simp [step, clockEdge, h]

theorem step_busy (s : State) (h : s.nextIn.rst = false) (hb : s.busy = true) :
    step s = busyEdge s.nextIn s.seen := by
  simp [step, clockEdge, h, hb]

theorem step_accept (s : State) (h : s.nextIn.rst = false) (hb : s.busy = false) (hv : s.nextIn.cmdValid = true) :
    step s = exec s.nextIn.command s.seen := by
  simp [step, clockEdge, h, hb, hv, EdgeIn.command]

theorem step_idle (s : State) (h : s.nextIn.rst = false) (hb : s.busy = false) (hv : s.nextIn.cmdValid = false) :
    step s = .next s.seen := by
  simp [step, clockEdge, h, hb, hv]

/-- A pure command completes at once with its result (R74). -/
theorem exec_pure (i : Instr) (v : Word) (s : State) (h : pureResult i = some v) (hb : s.busy = false) :
    exec i s = .next ((s.accept i.opcode).complete v) := by
  cases i <;> simp [pureResult] at h <;> subst h <;>
    simp [exec, execLen, execZze, execSlen, execZzd, State.offer_of_idle _ _ hb, Instr.opcode]

/-- An encode loads its value (R73). -/
theorem exec_encode (i : Instr) (v : Word) (s : State) (h : i = .enc v ∨ ∃ a, i = .senc a ∧ v = unsign a)
    (hb : s.busy = false) : exec i s = .next ((s.accept i.opcode).startEncode v) := by
  obtain rfl | ⟨a, rfl, rfl⟩ := h <;> simp [exec, execEnc, execSenc, State.offer_of_idle _ _ hb, Instr.opcode]

/-- A decode clears its registers (R73). -/
theorem exec_decode (i : Instr) (s : State) (h : i = .dec ∨ i = .sdec) (hb : s.busy = false) :
    exec i s = .next (s.accept i.opcode).startDecode := by
  obtain rfl | rfl := h <;> simp [exec, execDec, execSdec, State.offer_of_idle _ _ hb, Instr.opcode]

/-- The three shapes of a command. -/
theorem instr_shapes (i : Instr) :
    (∃ v, pureResult i = some v) ∨ (∃ v, i = .enc v ∨ ∃ a, i = .senc a ∧ v = unsign a) ∨ i = .dec ∨ i = .sdec := by
  cases i <;> simp [pureResult]

/-- Everything a step that answers a next state can have done. -/
inductive StepCase (s : State) : State → Prop
  | reset (h : s.nextIn.rst = true) : StepCase s s.seen.resetRegs
  | idle (h : s.nextIn.rst = false) (hb : s.busy = false) (hv : s.nextIn.cmdValid = false) : StepCase s s.seen
  | pure (h : s.nextIn.rst = false) (hb : s.busy = false) (hv : s.nextIn.cmdValid = true) (v : Word)
      (hi : pureResult s.nextIn.command = some v) :
      StepCase s ((s.seen.accept s.nextIn.command.opcode).complete v)
  | encode (h : s.nextIn.rst = false) (hb : s.busy = false) (hv : s.nextIn.cmdValid = true) (v : Word)
      (hi : s.nextIn.command = .enc v ∨ ∃ a, s.nextIn.command = .senc a ∧ v = unsign a) :
      StepCase s ((s.seen.accept s.nextIn.command.opcode).startEncode v)
  | decode (h : s.nextIn.rst = false) (hb : s.busy = false) (hv : s.nextIn.cmdValid = true)
      (hi : s.nextIn.command = .dec ∨ s.nextIn.command = .sdec) :
      StepCase s (s.seen.accept s.nextIn.command.opcode).startDecode
  | stall (h : s.nextIn.rst = false) (hb : s.busy = true)
      (hs : isEncoderOp s.op = true ∧ s.nextIn.snkReady = false ∨
        isDecoderOp s.op = true ∧ s.nextIn.srcDrive = .stall) : StepCase s s.seen
  | encMore (h : s.nextIn.rst = false) (hb : s.busy = true) (ho : isEncoderOp s.op = true)
      (hr : s.nextIn.snkReady = true) (hx : s.nextIn.snkErr = false) (hm : 127 < s.rem.toNat) :
      StepCase s { s.seen with snk := s.seen.snk ++ [s.snkData], cnt := s.cnt + 1, rem := s.rem >>> 7 }
  | encLast (h : s.nextIn.rst = false) (hb : s.busy = true) (ho : isEncoderOp s.op = true)
      (hr : s.nextIn.snkReady = true) (hx : s.nextIn.snkErr = false) (hm : s.rem.toNat ≤ 127) :
      StepCase s (({ s.seen with snk := s.seen.snk ++ [s.snkData], cnt := s.cnt + 1 } : State).complete
        ((s.cnt + 1).setWidth 64))
  | encFail (h : s.nextIn.rst = false) (hb : s.busy = true) (ho : isEncoderOp s.op = true)
      (hr : s.nextIn.snkReady = true) (hx : s.nextIn.snkErr = true) :
      StepCase s (({ s.seen with snk := s.seen.snk ++ s.nextIn.snkKept } : State).failCompletion stExt
        s.nextIn.snkCode)
  | decMore (h : s.nextIn.rst = false) (hb : s.busy = true) (ho : isDecoderOp s.op = true) (b : Byte)
      (bs : List Byte) (hd : s.nextIn.srcDrive = .serve) (hs : s.seen.src = b :: bs) (hc : contBit b = true) :
      StepCase s (({ s.seen with src := bs, srcCur := s.srcCur + 1 } : State).accumulate b)
  | decLast (h : s.nextIn.rst = false) (hb : s.busy = true) (ho : isDecoderOp s.op = true) (b : Byte)
      (bs : List Byte) (hd : s.nextIn.srcDrive = .serve) (hs : s.seen.src = b :: bs) (hc : contBit b = false) :
      StepCase s ((({ s.seen with src := bs, srcCur := s.srcCur + 1 } : State).accumulate b).complete
        (decoderResult s.op (s.acc + s.fac * payload b)))
  | decFail (h : s.nextIn.rst = false) (hb : s.busy = true) (ho : isDecoderOp s.op = true) (st : BitVec 2)
      (x : Byte)
      (hst : st = stUnderflow ∧ x = 0 ∧
          (s.nextIn.srcDrive = .serve ∧ s.seen.src = [] ∨ s.nextIn.srcDrive = .empty) ∨
        st = stExt ∧ s.nextIn.srcDrive = .fail x) : StepCase s (s.seen.failCompletion st x)

/-- One inversion of `step`: every later proof about a next state is a case analysis on it. -/
theorem step_next_cases {s t : State} (hst : step s = .next t) : StepCase s t := by
  cases hr : s.nextIn.rst
  case true => rw [step_reset s hr] at hst; cases hst; exact .reset hr
  case false =>
  cases hb : s.busy
  case false =>
    cases hv : s.nextIn.cmdValid
    case false => rw [step_idle s hr hb hv] at hst; cases hst; exact .idle hr hb hv
    case true =>
      rw [step_accept s hr hb hv] at hst
      have hb' : s.seen.busy = false := hb
      obtain ⟨v, hi⟩ | ⟨v, hi⟩ | hi := instr_shapes s.nextIn.command
      · rw [exec_pure _ v _ hi hb'] at hst; cases hst; exact .pure hr hb hv v hi
      · rw [exec_encode _ v _ hi hb'] at hst; cases hst; exact .encode hr hb hv v hi
      · rw [exec_decode _ _ hi hb'] at hst; cases hst; exact .decode hr hb hv hi
  case true =>
    rw [step_busy s hr hb] at hst
    cases he : isEncoderOp s.op
    case true =>
      rw [busyEdge_encoder s.nextIn s.seen he] at hst
      cases hk : s.nextIn.snkReady
      case false => rw [encoderStep_wait _ _ hk] at hst; cases hst; exact .stall hr hb (.inl ⟨he, hk⟩)
      case true =>
        cases hx : s.nextIn.snkErr
        case true => rw [encoderStep_xerr _ _ hk hx] at hst; cases hst; exact .encFail hr hb he hk hx
        case false =>
          by_cases hm : 127 < s.rem.toNat
          · rw [encoderStep_more _ _ hk hx (by simpa using hm)] at hst; cases hst
            exact .encMore hr hb he hk hx hm
          · have hm' : s.rem.toNat ≤ 127 := by omega
            rw [encoderStep_last _ _ hk hx (by simpa using hm')] at hst; cases hst
            exact .encLast hr hb he hk hx hm'
    case false =>
      cases hd : isDecoderOp s.op
      case false => rw [busyEdge_pure s.nextIn s.seen (by simp [isStreamingOp, he, hd])] at hst; cases hst
      case true =>
        rw [busyEdge_decoder s.nextIn s.seen hd] at hst
        cases hdr : s.nextIn.srcDrive with
        | stall => rw [decoderStep_stall _ _ _ hdr] at hst; cases hst; exact .stall hr hb (.inr ⟨hd, hdr⟩)
        | empty =>
          rw [decoderStep_empty _ _ _ (.inr hdr)] at hst; cases hst
          exact .decFail hr hb hd _ _ (.inl ⟨rfl, rfl, .inr hdr⟩)
        | fail c => rw [decoderStep_fail _ _ _ c hdr] at hst; cases hst; exact .decFail hr hb hd _ _ (.inr ⟨rfl, hdr⟩)
        | reserved d => rw [decoderStep_reserved _ _ _ d hdr] at hst; cases hst
        | serve =>
          cases hs : s.seen.src with
          | nil =>
            rw [decoderStep_empty _ _ _ (.inl ⟨hdr, hs⟩)] at hst; cases hst
            exact .decFail hr hb hd _ _ (.inl ⟨rfl, rfl, .inl ⟨hdr, hs⟩⟩)
          | cons b bs =>
            cases hc : contBit b
            case true =>
              rw [decoderStep_more _ _ _ b bs hdr hs hc] at hst; cases hst
              exact .decMore hr hb hd b bs hdr hs hc
            case false =>
              rw [decoderStep_last _ _ _ b bs hdr hs hc] at hst; cases hst
              exact .decLast hr hb hd b bs hdr hs hc

end Sys2Proof.Machine
end

