-- ==== Sys2Proof/Laws/Run.lean ====
section
/-! SUPPORT. Runs of several steps: one step at a time, composition, and the host's own `core.run`. -/

namespace Sys2Proof.Machine

@[simp] theorem run_zero (s : State) : run 0 s = .next s := rfl

theorem run_succ {s s' : State} (h : step s = .next s') (k : Nat) : run (k + 1) s = run k s' := by
  simp only [run, h]

theorem run_succ_fault {s : State} {f : Fault} (h : step s = .fault f) (k : Nat) : run (k + 1) s = .fault f := by
  simp only [run, h]

theorem run_succ_refused {s : State} {r : Refusal} (h : step s = .refused r) (k : Nat) :
    run (k + 1) s = .refused r := by
  simp only [run, h]

/-- A run of `j + k` steps is a run of `k` steps from where `j` steps lead. -/
theorem run_add {s t : State} {j : Nat} (h : run j s = .next t) (k : Nat) : run (j + k) s = run k t := by
  induction j generalizing s with
  | zero => cases h; rw [Nat.zero_add]
  | succ j ih =>
    rw [show j + 1 + k = (j + k) + 1 by omega]
    cases hs : step s with
    | next s' => rw [run_succ hs] at h ⊢; exact ih h
    | fault f => rw [run_succ_fault hs] at h; cases h
    | refused r => rw [run_succ_refused hs] at h; cases h

section
variable (M : Host.Core) {s s' : M.State}

theorem coreRun_next (h : M.step s = .next s') (k : Nat) : M.run (k + 1) s = M.run k s' := by
  simp only [Host.Core.run, h]

theorem coreRun_fault {f : M.Fault} (h : M.step s = .fault f) (k : Nat) : M.run (k + 1) s = .fault f := by
  simp only [Host.Core.run, h]

theorem coreRun_refused {r : M.Refusal} (h : M.step s = .refused r) (k : Nat) : M.run (k + 1) s = .refused r := by
  simp only [Host.Core.run, h]

end

/-- The model's `run` is the run of the host's interface. -/
theorem run_eq_core (k : Nat) (s : State) : run k s = core.run k s := by
  induction k generalizing s with
  | zero => rfl
  | succ k ih =>
    cases hs : step s with
    | next t => exact (run_succ hs k).trans ((ih t).trans (coreRun_next core hs k).symm)
    | fault f => exact (run_succ_fault hs k).trans (coreRun_fault core hs k).symm
    | refused r => exact (run_succ_refused hs k).trans (coreRun_refused core hs k).symm

end Sys2Proof.Machine
end

