-- ==== Sys2Proof/Tests/Slice0.lean ====
section
/-! SUPPORT. The model's own tests. Expected values are those of 95_test_vectors.md (its sections are named) or worked by hand
from the rule named. At the end, for every statement with hypotheses, a witness that meets them. -/

namespace Sys2Proof.Tests

open Sys2Proof Sys2Proof.Machine

/-- The next state of an outcome, if it is one. -/
def nextOf : Host.Outcome State Fault Refusal → Option State
  | .next s => some s
  | .fault _ => none
  | .refused _ => none

/-- An idle core after reset with the given coming edges. -/
def idle (es : List EdgeIn) : State := { State.reset with inputs := es }

/-- An encoder (`op` 1 or 5) in the middle of its work. -/
def encoding (op : Opcode) (rem : Word) (cnt : BitVec 4) (es : List EdgeIn) : State :=
  { State.reset with busy := true, op := op, rem := rem, cnt := cnt, inputs := es }

/-- A decoder (`op` 2 or 6) in the middle of its work. -/
def decoding (op : Opcode) (acc fac : Word) (src : List Byte) (es : List EdgeIn) : State :=
  { State.reset with busy := true, op := op, acc := acc, fac := fac, src := src, inputs := es }

/-- The edge at which the host offers a command given by its word. -/
def offerWord (w : Cmd) : EdgeIn := offerEdge w

/-- An edge at which the sink acknowledges. -/
def ackEdge : EdgeIn := { snkReady := true }

/-- An edge at which the source serves. -/
def serveEdge : EdgeIn := { srcDrive := .serve }

/-- An edge with `rst = 1`. -/
def resetEdge : EdgeIn := { rst := true }

/-! ### Decoding: words written out from R50 and R52 -/

theorem test_decode_len : decode 0x000000000000003E8#67 = .len 1000 := by decide
theorem test_decode_enc : decode 0x1000000000000012C#67 = .enc 300 := by decide
theorem test_decode_dec_ignores_argument : decode 0x2DEADBEEFDEADBEEF#67 = .dec := by decide
theorem test_decode_zze : decode 0x3FFFFFFFFFFFFFF9C#67 = .zze 0xFFFFFFFFFFFFFF9C := by decide
theorem test_decode_slen : decode 0x4FFFFFFFFFFFFDFFF#67 = .slen 0xFFFFFFFFFFFFDFFF := by decide
theorem test_decode_senc : decode 0x5FFFFFFFFFFFFFF9C#67 = .senc 0xFFFFFFFFFFFFFF9C := by decide
theorem test_decode_sdec : decode 0x60000000000000000#67 = .sdec := by decide
theorem test_decode_zzd : decode 0x700000000000000C7#67 = .zzd 199 := by decide
theorem test_table_word : decodeTableWord 67 0x58000000000000000 = some (.senc 0x8000000000000000) := by decide
theorem test_encode_signed : encode (.senc (twos (-100))) = 0x5FFFFFFFFFFFFFF9C#67 := by decide

/-! ### What the checks refuse -/

theorem test_wide_number_refused : decodeNat (2 ^ 67) = .error .widerThanCommandWord := by rfl
theorem test_u_dec_refused : (UOperand.dec (2 ^ 64)).wf = false := by decide
theorem test_u_hex_refused : (UOperand.hex (2 ^ 64)).wf = false := by decide
theorem test_u_pow_refused : (UOperand.pow 64).wf = false := by decide
theorem test_u_pow_minus_one_refused : (UOperand.powMinusOne 65).wf = false := by decide
theorem test_s_dec_high_refused : (SOperand.dec (2 ^ 63)).wf = false := by decide
theorem test_s_dec_low_refused : (SOperand.dec (-(2 ^ 63) - 1)).wf = false := by decide
theorem test_s_hex_refused : (SOperand.hex (2 ^ 64)).wf = false := by decide
theorem test_unsigned_lines_refused :
    (AsmLine.len (.pow 64)).assemble = none ∧ (AsmLine.enc (.pow 64)).assemble = none ∧
    (AsmLine.zzd (.pow 64)).assemble = none := by decide
theorem test_signed_lines_refused :
    (AsmLine.zze (.dec (2 ^ 63))).assemble = none ∧ (AsmLine.slen (.dec (2 ^ 63))).assemble = none ∧
    (AsmLine.senc (.dec (2 ^ 63))).assemble = none := by decide

/-! ### Assembler text (section 3, P1; R65, R66) -/

theorem test_text_enc : Asm.assembleText "ENC 1000 ; a comment".toList = some 0x100000000000003E8#67 := by decide
theorem test_text_senc : Asm.assembleText "SENC -100".toList = some 0x5FFFFFFFFFFFFFF9C#67 := by decide
theorem test_text_power : Asm.assembleText "LEN 2^64-1".toList = some 0x0FFFFFFFFFFFFFFFF#67 := by decide
theorem test_text_signed_hex : Asm.assembleText "ZZE 0x8000000000000000".toList = some 0x38000000000000000#67 := by decide
theorem test_text_alias : Asm.assembleText "signed_decode".toList = some 0x60000000000000000#67 := by decide
theorem test_text_out_of_range : Asm.assembleText "LEN 2^64".toList = none := by decide
/-- Log 15: leading zeros, `-0`, a short signed pattern. -/
theorem test_text_digits : Asm.assembleText "LEN 00100".toList = some 0x00000000000000064#67 ∧
    Asm.assembleText "ZZE -0".toList = some 0x30000000000000000#67 ∧
    Asm.assembleText "SLEN 0xff".toList = some 0x400000000000000FF#67 := by decide
theorem test_text_missing_operand : Asm.assembleText "LEN".toList = none := by decide
theorem test_listing : Asm.listing 0x5FFFFFFFFFFFFFF9C#67 = "op=101 arg=0xFFFFFFFFFFFFFF9C".toList := by decide
theorem test_word_text : Asm.cmdText 0x5FFFFFFFFFFFFFF9C#67 = "0x5FFFFFFFFFFFFFF9C".toList := by decide

/-! ### The functions (sections 2.1, 2.3, 2.7) -/

theorem test_length_zero : length 0 = 1 := by decide
theorem test_length_bit_14 : length 0x3FFF = 2 ∧ length 0x4000 = 3 := by decide
theorem test_enc_long : enc 0x0123456789ABCDEF = [0xEF, 0x9B, 0xAF, 0xCD, 0xF8, 0xAC, 0xD1, 0x91, 0x01] := by decide
theorem test_enc_no_extra_byte : enc 0x8000000000000000 = [0x80, 0x80, 0x80, 0x80, 0x80, 0x80, 0x80, 0x80, 0x80, 0x01] := by
  decide
theorem test_dec_drops_high_bit : dec [0xFF, 0xFF, 0xFF, 0xFF, 0xFF, 0xFF, 0xFF, 0xFF, 0xFF, 0x02] =
    .ok 0x7FFFFFFFFFFFFFFF 10 := by decide
theorem test_dec_leaves_the_rest : dec [0xE8, 0x07, 0xC7, 0x01, 0x80] = .ok 1000 2 := by decide

/-! ### One step of each command -/

/-- S3. -/
theorem test_len_step : (nextOf (step (idle [offerWord 0x000000000000003E8]))).map (fun t => (t.busy, t.res, t.st, t.pc)) =
    some (false, 2, 0, 1) := by decide
/-- Section 2.6, Q2: acceptance transfers nothing. -/
theorem test_enc_accept : (nextOf (step (idle [{ offerWord 0x1000000000000012C with snkReady := true }]))).map
    (fun t => (t.busy, t.rem, t.snk, t.snkData)) = some (true, 300, [], 0xAC) := by decide
/-- Section 2.2: the second byte of `ENC 300`. -/
theorem test_enc_last_byte : (nextOf (step (encoding 1 2 1 [ackEdge]))).map (fun t => (t.busy, t.snk, t.res, t.cnt)) =
    some (false, [0x02], 2, 2) := by decide
/-- Section 2.3: a request answered with E8. -/
theorem test_dec_first_byte : (nextOf (step (decoding 2 0 1 [0xE8, 0x07] [serveEdge]))).map
    (fun t => (t.busy, t.acc, t.fac, t.src)) = some (true, 104, 128, [0x07]) := by decide
/-- S5: the last byte. -/
theorem test_dec_last_byte : (nextOf (step (decoding 2 104 128 [0x07] [serveEdge]))).map (fun t => (t.busy, t.res, t.src)) =
    some (false, 1000, []) := by decide
/-- Section 2.4, and the wrong reading of section 2.7 with a logical shift. -/
theorem test_zze_step : (nextOf (step (idle [offerWord 0x3FFFFFFFFFFFFFF9C]))).map (fun t => t.res) = some 199 := by decide
/-- Section 2.4. -/
theorem test_zzd_step : (nextOf (step (idle [offerWord 0x7FFFFFFFFFFFFFFFF]))).map (fun t => t.res) =
    some 0x8000000000000000 := by decide
/-- Section 2.5. -/
theorem test_slen_step : (nextOf (step (idle [offerWord 0x4FFFFFFFFFFFFDFFF]))).map (fun t => t.res) = some 3 := by decide
/-- S12: the first byte of `SENC -100`. -/
theorem test_senc_accept : (nextOf (step (idle [offerWord 0x5FFFFFFFFFFFFFF9C]))).map (fun t => (t.rem, t.snkData)) =
    some (199, 0xC7) := by decide
/-- S12: its last byte. -/
theorem test_senc_last_byte : (nextOf (step (encoding 5 1 1 [ackEdge]))).map (fun t => (t.snk, t.res)) =
    some ([0x01], 2) := by decide
/-- Section 3: `SDEC` starts from `ACC = 0`, `FAC = 1` whatever they held (R73). -/
theorem test_sdec_accept : (nextOf (step { idle [offerWord 0x60000000000000000] with acc := 5, fac := 7 })).map
    (fun t => (t.busy, t.acc, t.fac)) = some (true, 0, 1) := by decide
/-- S14: `ACC = 71` after C7, then 01. -/
theorem test_sdec_last_byte : (nextOf (step (decoding 6 71 128 [0x01] [serveEdge]))).map (fun t => (t.acc, t.res)) =
    some (199, 0xFFFFFFFFFFFFFF9C) := by decide

/-! ### Failures, reset, hazards -/

/-- Section 2.2: `XErr(2A)` at the second byte of `ENC 16384`. -/
theorem test_sink_failure : (nextOf (step (encoding 1 0x80 1 [{ snkReady := true, snkErr := true, snkCode := 0x2A }]))).map
    (fun t => (t.busy, t.st, t.xcode, t.cnt)) = some (false, 2, 0x2A, 1) := by decide
/-- Section 2.3: no byte left. -/
theorem test_underflow : (nextOf (step (decoding 2 104 128 [] [serveEdge]))).map (fun t => (t.busy, t.st, t.xcode, t.outcomes)) =
    some (false, 1, 0, [⟨none, 1, 0⟩]) := by decide
/-- Section 2.3: `XErr(07)` after E8. -/
theorem test_source_failure : (nextOf (step (decoding 6 104 128 [0x55] [{ srcDrive := .fail 7 }]))).map
    (fun t => (t.st, t.xcode, t.acc, t.src)) = some (2, 7, 104, [0x55]) := by decide
/-- `Empty` is not a stall (section 2.7). -/
theorem test_source_stall : nextOf (step (decoding 2 0 128 [] [EdgeIn.quiet])) = some (decoding 2 0 128 [] []) := by decide
/-- Section 2.6, Q6: the sink keeps the byte it has. -/
theorem test_reset_during_encode : (nextOf (step { encoding 1 0x80 1 [resetEdge] with snk := [0x80] })).map
    (fun t => (t.busy, t.rem, t.cnt, t.snk, t.outcomes)) = some (false, 0, 0, [0x80], []) := by decide
/-- Section 2.6, Q7. -/
theorem test_reset_beats_command : nextOf (step (idle [{ offerWord 0x00000000000000005 with rst := true }])) =
    some State.reset := by decide
/-- Section 2.6, Q3: the offer during the last put has no effect. -/
theorem test_offer_while_busy : (nextOf (step (encoding 1 2 1 [{ offerWord 0x00000000000000007 with snkReady := true }]))).map
    (fun t => (t.res, t.pc, t.op)) = some (2, 0, 1) := by decide
/-- A held command is accepted again at the next idle step (R193), and quiet edges change nothing (R71). -/
theorem test_quiet_edge : nextOf (step State.reset) = some State.reset := by decide

/-- The fixed-name pair of the host: the word offered is the next one run. -/
theorem test_withFetchWord : (nextOf (step (State.reset.withFetchWord 67 0x000000000000003E8))).map (fun t => t.res) = some 2 := by
  decide

/-! ### Witnesses: concrete states and operands that meet the hypotheses of the statements -/

/-- The invariant does not speak of the coming edges. -/
theorem inv_with_inputs {s : State} (h : s.Inv) (es : List EdgeIn) : { s with inputs := es }.Inv :=
  ⟨h.st_legal, h.xcode_zero, h.busy_streams, h.cnt_le, h.encode_room, h.decoder, h.count_result, h.outcomes_ok⟩

theorem witness_inv_idle (es : List EdgeIn) : (idle es).Inv :=
  inv_with_inputs (s := State.reset)
    ⟨by decide, by decide, by decide, by decide, by decide, fun h => absurd h (by decide), by decide,
      fun o h => absurd h (by simp [State.reset])⟩ es

/-- `ENC 300` after its acceptance. -/
theorem witness_inv_encoding (es : List EdgeIn) : (encoding 1 300 0 es).Inv :=
  inv_with_inputs (s := encoding 1 300 0 [])
    ⟨by decide, by decide, by decide, by decide, by decide, fun h => absurd h (by decide), by decide,
      fun o h => absurd h (by simp [encoding, State.reset])⟩ es

/-- The last byte of a ten-byte encode: nine are put and one is left (R101). -/
theorem witness_inv_encoding_tenth (es : List EdgeIn) : (encoding 5 1 9 es).Inv :=
  inv_with_inputs (s := encoding 5 1 9 [])
    ⟨by decide, by decide, by decide, by decide, by decide, fun h => absurd h (by decide), by decide,
      fun o h => absurd h (by simp [encoding, State.reset])⟩ es

/-- `DEC` after the byte E8. -/
theorem witness_inv_decoding (es : List EdgeIn) : (decoding 2 104 128 [0x07] es).Inv :=
  inv_with_inputs (s := decoding 2 104 128 [0x07] [])
    ⟨by decide, by decide, by decide, by decide, by decide, fun _ => .inr ⟨1, by decide, by decide, by decide⟩, by decide,
      fun o h => absurd h (by simp [decoding, State.reset])⟩ es

theorem witness_DecodeOfEncodeIsTheCommand : (Instr.enc 300).wf = true := by decide

/-- Each range at its ends, and just outside. -/
theorem witness_AssembledWordCarriesTheOperand :
    (UOperand.dec (2 ^ 64 - 1)).value < 2 ^ 64 ∧ (UOperand.hex (2 ^ 64 - 1)).value < 2 ^ 64 ∧
    (UOperand.pow 63).value < 2 ^ 64 ∧ (UOperand.powMinusOne 64).value < 2 ^ 64 ∧
    (-(2 ^ 63) ≤ (-(2 ^ 63) : Int) ∧ (-(2 ^ 63) : Int) < 2 ^ 63) ∧ (-(2 ^ 63) ≤ (2 ^ 63 - 1 : Int) ∧ (2 ^ 63 - 1 : Int) < 2 ^ 63) ∧
    2 ^ 64 - 1 < 2 ^ 64 ∧
    2 ^ 64 ≤ (UOperand.dec (2 ^ 64)).value ∧ 2 ^ 64 ≤ (UOperand.pow 64).value ∧ 2 ^ 64 ≤ (UOperand.powMinusOne 65).value ∧
    (-(2 ^ 63) - 1 < (-(2 ^ 63) : Int) ∨ 2 ^ 63 ≤ (-(2 ^ 63) - 1 : Int)) ∧ 2 ^ 64 ≤ 2 ^ 64 := by
  decide

theorem witness_EveryWordSelectsItsCommand : State.reset.busy = false := by decide

theorem witness_IdleStepRunsTheOfferedCommand :
    (let s := idle [offerWord 0x1000000000000012C];
      s.busy = false ∧ s.nextIn.rst = false ∧ s.nextIn.cmdValid = true) ∧
    decodeTableWord 67 (2 ^ 67 - 1) = some (.zzd 0xFFFFFFFFFFFFFFFF) ∧ decodeTableWord 72 0 = some (.len 0) := by decide

theorem witness_AcceptanceRecordsOpcode :
    (let s := idle [offerWord 0x70000000000000003];
      s.busy = false ∧ s.nextIn.rst = false ∧ s.nextIn.cmdValid = true) ∧
    (State.reset.busy = false ∧ State.reset.nextIn.rst = false ∧ State.reset.nextIn.cmdValid = false) := by decide

theorem witness_BusyCoreIgnoresTheCommandPort : (encoding 1 300 0 []).busy = true := by decide

theorem witness_ResetEdgeWins :
    (encoding 1 0x80 1 [resetEdge]).nextIn.rst = true ∧ (encoding 1 0x80 1 [resetEdge]).busy = true ∧
    (idle [resetEdge]).nextIn.rst = true := by decide

theorem witness_TwoControlStates :
    ((idle []).Inv ∧ (idle []).busy = false) ∧ ((encoding 1 300 0 []).Inv ∧ (encoding 1 300 0 []).busy = true) ∧
    ((decoding 2 104 128 [0x07] []).Inv ∧ (decoding 2 104 128 [0x07] []).busy = true) :=
  ⟨⟨witness_inv_idle _, rfl⟩, ⟨witness_inv_encoding _, rfl⟩, ⟨witness_inv_decoding _, rfl⟩⟩

theorem witness_StreamingAcceptance : (idle []).busy = false := by decide
theorem witness_LenCompletes : State.reset.busy = false := by decide
theorem witness_ZzeCompletes : State.reset.busy = false := by decide
theorem witness_ZzdCompletes : State.reset.busy = false := by decide

/-- The clauses below 10 bytes: `-8193` needs 3 bytes, and 2 are too few. -/
theorem witness_SlenCompletes :
    State.reset.busy = false ∧ length (unsign (twos (-8193))) < 10 ∧ 2 < length (unsign (twos (-8193))) := by decide

theorem witness_HeldPureCommandRepeats :
    let s := idle (List.replicate 3 (offerEdge (encode (.len 5))) ++ [EdgeIn.quiet])
    s.busy = false ∧ pureResult (.len 5) = some 1 ∧
      s.inputs = List.replicate 3 (offerEdge (encode (.len 5))) ++ [EdgeIn.quiet] := by decide

theorem witness_StallChangesNoRegister :
    (let s := encoding 5 300 0 [EdgeIn.quiet];
      s.busy = true ∧ s.nextIn.rst = false ∧ (s.op = 1 ∨ s.op = 5) ∧ s.nextIn.snkReady = false) ∧
    (let s := decoding 6 0 1 [0x07] [EdgeIn.quiet];
      s.busy = true ∧ s.nextIn.rst = false ∧ (s.op = 2 ∨ s.op = 6) ∧ s.nextIn.srcDrive = .stall) := by decide

/-- The least remaining value with a further group, and a stall. -/
theorem witness_EncoderAdvances :
    (encoding 1 128 0 [EdgeIn.quiet]).nextIn.snkReady = false ∧
    let s := encoding 1 128 0 [ackEdge]
    s.busy = true ∧ (s.op = 1 ∨ s.op = 5) ∧ s.nextIn.rst = false ∧ s.nextIn.snkReady = true ∧ s.nextIn.snkErr = false ∧
      127 < s.rem.toNat := by decide

/-- The greatest last group. -/
theorem witness_EncoderFinishes :
    let s := encoding 5 127 0 [ackEdge]
    s.busy = true ∧ (s.op = 1 ∨ s.op = 5) ∧ s.nextIn.rst = false ∧ s.nextIn.snkReady = true ∧ s.nextIn.snkErr = false ∧
      s.rem.toNat ≤ 127 := by decide

theorem witness_SinkFailureEndsTheEncode :
    let s := encoding 1 127 0 [{ snkReady := true, snkErr := true, snkCode := 0xFF }]
    s.busy = true ∧ (s.op = 1 ∨ s.op = 5) ∧ s.nextIn.rst = false ∧ s.nextIn.snkReady = true ∧ s.nextIn.snkErr = true := by
  decide

theorem witness_DecoderTakesAByte :
    (let s := decoding 2 0 1 [0x80, 0x01] [serveEdge];
      s.busy = true ∧ (s.op = 2 ∨ s.op = 6) ∧ s.nextIn.rst = false ∧ s.nextIn.srcDrive = .serve ∧
        s.src ++ s.nextIn.srcArrive = 0x80 :: [0x01] ∧ 128 ≤ (0x80 : Byte).toNat) ∧
    (let s := decoding 6 0 1 [] [{ srcDrive := .serve, srcArrive := [0x7F] }];
      s.busy = true ∧ (s.op = 2 ∨ s.op = 6) ∧ s.nextIn.rst = false ∧ s.nextIn.srcDrive = .serve ∧
        s.src ++ s.nextIn.srcArrive = 0x7F :: [] ∧ (0x7F : Byte).toNat < 128) := by decide

theorem witness_EmptySourceUnderflows :
    (let s := decoding 2 0 1 [] [serveEdge];
      s.busy = true ∧ (s.op = 2 ∨ s.op = 6) ∧ s.nextIn.rst = false ∧
        s.nextIn.srcDrive = .serve ∧ s.src ++ s.nextIn.srcArrive = []) ∧
    (let s := decoding 6 0 1 [0x07] [{ srcDrive := .empty }];
      s.busy = true ∧ (s.op = 2 ∨ s.op = 6) ∧ s.nextIn.rst = false ∧ s.nextIn.srcDrive = .empty) := by decide

theorem witness_SourceFailureEndsTheDecode :
    let s := decoding 2 0 1 [0x07] [{ srcDrive := .fail 0 }]
    s.busy = true ∧ (s.op = 2 ∨ s.op = 6) ∧ s.nextIn.rst = false ∧ s.nextIn.srcDrive = .fail 0 := by decide

/-- At the tenth byte, with every accumulator bit set, and after it. -/
theorem witness_AccumulationNeverCarries :
    (decoding 2 0x7FFFFFFFFFFFFFFF 0x8000000000000000 [] []).decoderInv ∧
    (9 ≤ 9 ∧ (0x8000000000000000 : Word).toNat = 2 ^ (7 * 9)) ∧
    (decoding 2 0xFFFFFFFFFFFFFFFF 0 [] []).decoderInv :=
  ⟨.inr ⟨9, by decide, by decide, by decide⟩, by decide, .inl rfl⟩

theorem witness_LengthIsTheLeastByteCount :
    (0 : Word) = 0 ∧ (0x8000000000000000 : Word) ≠ 0 ∧ 1 ≤ 10 ∧ (0x8000000000000000 : Word).toNat < 2 ^ (7 * 10) := by decide

/-- Each row's range is met at both ends by words. -/
theorem witness_LengthTable :
    ∀ r ∈ ([(0, 0), (1, 2 ^ 7 - 1), (2 ^ 7, 2 ^ 14 - 1), (2 ^ 14, 2 ^ 21 - 1), (2 ^ 21, 2 ^ 28 - 1), (2 ^ 28, 2 ^ 35 - 1),
        (2 ^ 35, 2 ^ 42 - 1), (2 ^ 42, 2 ^ 49 - 1), (2 ^ 49, 2 ^ 56 - 1), (2 ^ 56, 2 ^ 63 - 1),
        (2 ^ 63, 2 ^ 64 - 1)] : List (Nat × Nat)),
      (BitVec.ofNat 64 r.1).toNat = r.1 ∧ (BitVec.ofNat 64 r.2).toNat = r.2 ∧ r.1 ≤ r.2 := by decide

theorem witness_LengthCountsTheShifts : 9 ≤ 9 := by decide

theorem witness_EncodeLoopAndWireFormat : 127 < (128 : Word).toNat ∧ (127 : Word).toNat ≤ 127 ∧
    (enc 300)[0]? = some 0xAC ∧ (enc 300)[1]? = some 0x02 := by decide

theorem witness_CanonicalSequencesAreEncodings :
    canonical [0xE8, 0x07] = true ∧ canonical [0x00] = true ∧
    canonical [0xFF, 0xFF, 0xFF, 0xFF, 0xFF, 0xFF, 0xFF, 0xFF, 0xFF, 0x01] = true ∧
    canonical [0x80, 0x00] = false ∧ canonical [0x80, 0x80, 0x80, 0x80, 0x80, 0x80, 0x80, 0x80, 0x80, 0x02] = false := by decide

theorem witness_EncodingIsMinimal : dec [0xE8, 0x87, 0x00] = .ok 1000 3 ∧ payloadSum [0xE8, 0x87, 0x00] < 2 ^ 64 := by decide

theorem witness_EncodingsArePrefixFree : enc 300 <+: enc 300 ∧ enc (unsign (twos (-100))) = enc (unsign (twos (-100))) := by
  decide

theorem witness_DecodedValueIsThePayloadSum :
    (∀ b ∈ ([0xE8, 0xFF] : List Byte), 128 ≤ b.toNat) ∧ (0x7F : Byte).toNat < 128 ∧
    (∀ b ∈ ([0x80] : List Byte), 128 ≤ b.toNat) := by decide

theorem witness_PaddingAddsNothing : terminated [0xE8, 0x07] = true ∧ dec [0xE8, 0x07] = .ok 1000 2 ∧
    padded [0xE8, 0x07] 0 = [0xE8, 0x87, 0x00] := by decide

theorem witness_TwosComplement : (-(2 ^ 63) : Int) ≤ -(2 ^ 63) ∧ (2 ^ 63 - 1 : Int) < 2 ^ 63 := by decide

theorem witness_UnsignIsTheZigzagMap : 1 ≤ 1 ∧ 63 ≤ 63 := by decide
theorem witness_SignIsTheInverseMap : 62 ≤ 62 := by decide

/-- A next state from a state with the invariant: idle, encoding, decoding. -/
theorem witness_StepKeepsInvariant :
    (∃ t, (idle [offerWord 0x1000000000000012C]).Inv ∧ step (idle [offerWord 0x1000000000000012C]) = .next t) ∧
    (∃ t, (encoding 1 300 0 [ackEdge]).Inv ∧ step (encoding 1 300 0 [ackEdge]) = .next t) ∧
    (∃ t, (decoding 2 104 128 [0x07] [serveEdge]).Inv ∧ step (decoding 2 104 128 [0x07] [serveEdge]) = .next t) :=
  ⟨⟨_, witness_inv_idle _, rfl⟩, ⟨_, witness_inv_encoding _, rfl⟩, ⟨_, witness_inv_decoding _, rfl⟩⟩

/-- Both faults are raised; and the invariant with a legal source. -/
theorem witness_StepStopsOnlyOnReservedKind :
    step (decoding 2 0 1 [] [{ srcDrive := .reserved 0 }]) = .fault .srcKindReserved ∧
    step (encoding 0 0 0 []) = .fault .busyWithPureOp ∧
    ((decoding 2 104 128 [0x07] [serveEdge]).Inv ∧ (decoding 2 104 128 [0x07] [serveEdge]).srcReq = true ∧
      (decoding 2 104 128 [0x07] [serveEdge]).nextIn.legal = true) :=
  ⟨rfl, rfl, witness_inv_decoding _, rfl, rfl⟩

/-- `BUSY` rises at an acceptance; falls at a completion; falls at a reset. -/
theorem witness_BusyChangesOnlyByRule :
    (∃ t, step (idle [offerWord 0x20000000000000000]) = .next t ∧ t.busy = true) ∧
    (∃ t, step (encoding 1 2 1 [ackEdge]) = .next t ∧ t.busy = false) ∧
    (∃ t, step (encoding 1 2 1 [resetEdge]) = .next t ∧ t.busy = false) :=
  ⟨⟨_, rfl, rfl⟩, ⟨_, rfl, rfl⟩, ⟨_, rfl, rfl⟩⟩

theorem witness_ResultRegistersChangeOnlyAtCompletion :
    ∃ t, step (decoding 2 104 128 [] [serveEdge]) = .next t ∧ (decoding 2 104 128 [] [serveEdge]).nextIn.rst = false ∧
      t.st = 1 :=
  ⟨_, rfl, rfl, rfl⟩

/-- An outcome of each status: `OK`, `UNDERFLOW`, `EXT` from the sink, `EXT` from the source. -/
theorem witness_EveryFailureHasItsCause :
    (∃ t o, step (idle [offerWord 0x00000000000000000]) = .next t ∧ t.outcomes = [] ++ [o] ∧ o.st = 0) ∧
    (∃ t o, step (decoding 2 0 1 [] [serveEdge]) = .next t ∧ t.outcomes = [] ++ [o] ∧ o.st = 1) ∧
    (∃ t o, step (encoding 1 5 0 [{ snkReady := true, snkErr := true, snkCode := 0xFF }]) = .next t ∧
      t.outcomes = [] ++ [o] ∧ o.st = 2 ∧ (encoding 1 5 0 []).snkValid = true) ∧
    (∃ t o, step (decoding 6 0 1 [] [{ srcDrive := .fail 3 }]) = .next t ∧
      t.outcomes = [] ++ [o] ∧ o.st = 2 ∧ (decoding 6 0 1 [] []).srcReq = true) :=
  ⟨⟨_, _, rfl, rfl, rfl⟩, ⟨_, _, rfl, rfl, rfl⟩, ⟨_, _, rfl, rfl, rfl, rfl⟩, ⟨_, _, rfl, rfl, rfl, rfl⟩⟩

theorem witness_StreamsMoveOnlyThroughTheirPorts :
    (∃ t, step (idle [offerWord 0x20000000000000000]) = .next t ∧ (idle []).snkValid = false ∧ (idle []).srcReq = false) ∧
    (∃ t, step (encoding 1 300 0 [ackEdge]) = .next t ∧ (encoding 1 300 0 []).snkValid = true ∧ ackEdge.snkErr = false) ∧
    (∃ t, step (decoding 2 104 128 [0x07] [serveEdge]) = .next t ∧ t.srcCur = 1) ∧
    (∃ t, step (encoding 1 300 0 [EdgeIn.quiet]) = .next t ∧ EdgeIn.quiet.snkReady = false) :=
  ⟨⟨_, rfl, rfl, rfl⟩, ⟨_, rfl, rfl, rfl⟩, ⟨_, rfl, rfl⟩, ⟨_, rfl, rfl⟩⟩

theorem witness_IdlePortsAreIgnored : (decoding 2 0 1 [] []).snkValid = false ∧ (encoding 1 0 0 []).srcReq = false := by decide

/-- `ENC 1000` against a sink that acknowledges, stalls, acknowledges. -/
theorem witness_EncodeRunPutsTheEncoding :
    let a := offerWord 0x100000000000003E8
    let es := [ackEdge, EdgeIn.quiet, ackEdge]
    (idle (a :: es ++ [])).busy = false ∧ a.rst = false ∧ a.cmdValid = true ∧ a.command = .enc 1000 ∧
      (∀ e ∈ es, e.sinkWorks = true) ∧ es.countP (·.snkReady) = length 1000 ∧
      es.getLast?.any (·.snkReady) = true := by decide

/-- The edges at which a source stalls once, and is given the last byte while the decode runs. -/
def lateByte : List EdgeIn := [serveEdge, EdgeIn.quiet, { serveEdge with srcArrive := [0x01] }]

/-- `SDEC` of C7 01: C7 is there at acceptance, 01 arrives while the decode runs. -/
theorem witness_DecodeRunReturnsTheValue :
    (let a := offerWord 0x60000000000000000;
      let s : State := { idle (a :: lateByte ++ []) with src := [0xC7] };
      s.busy = false ∧ a.rst = false ∧ a.cmdValid = true ∧ a.command = .sdec ∧
        dec (s.seen.src ++ arrivals lateByte) = .ok 199 2 ∧ sign 199 = twos (-100) ∧
        (∀ e ∈ lateByte, e.sourceWorks = true) ∧ lateByte.countP (·.srcDrive == .serve) = 2 ∧
        lateByte.getLast?.any (·.srcDrive == .serve) = true) ∧
    ∀ n, (lateByte.take n).countP (·.srcDrive == .serve) ≤ (([0xC7] : List Byte) ++ arrivals (lateByte.take n)).length := by
  refine ⟨by decide, fun n => ?_⟩
  obtain h | h : n ≤ 3 ∨ lateByte.take n = lateByte.take 3 := by
    by_cases h : n ≤ 3
    · exact .inl h
    · exact .inr (by rw [List.take_of_length_le (by simp [lateByte]; omega), List.take_of_length_le (by simp [lateByte])])
  · interval_cases n <;> decide
  · rw [h]; decide

/-- `SENC -100`, whose bytes a producer brings to the source, then `SDEC`. -/
theorem witness_LoopBackReturnsTheValue :
    let a := offerWord 0x5FFFFFFFFFFFFFF9C
    let es := [ackEdge, { ackEdge with srcArrive := [0xC7] }]
    let d := { offerWord 0x60000000000000000 with srcArrive := [0x01, 0x55] }
    let fs := [serveEdge, serveEdge]
    let s := idle ((a :: es) ++ (d :: fs) ++ [])
    s.busy = false ∧ a.rst = false ∧ a.cmdValid = true ∧ a.command = .senc (twos (-100)) ∧ unsign (twos (-100)) = 199 ∧
      (∀ e ∈ es, e.sinkWorks = true) ∧ es.countP (·.snkReady) = length 199 ∧ es.getLast?.any (·.snkReady) = true ∧
      s.seen.src = [] ∧ d.hostSrc = none ∧ arrivals (es ++ [d]) = enc 199 ++ [0x55] ∧
      d.rst = false ∧ d.cmdValid = true ∧ d.command = .sdec ∧
      (∀ e ∈ fs, e.sourceWorks = true) ∧ fs.countP (·.srcDrive == .serve) = length 199 ∧
      fs.getLast?.any (·.srcDrive == .serve) = true := by decide

/-- S15: `DEC` of E8 87 and nothing more; and of an empty source. -/
theorem witness_DecodeRunUnderflows :
    (let a := offerWord 0x20000000000000000;
      let es := [serveEdge, serveEdge, serveEdge];
      let s : State := { idle (a :: es ++ []) with src := [0xE8, 0x87] };
      s.busy = false ∧ a.rst = false ∧ a.cmdValid = true ∧ a.command = .dec ∧ dec s.seen.src = .underflow ∧
        arrivals es = [] ∧ (∀ e ∈ es, e.sourceWorks = true) ∧
        es.countP (·.srcDrive == .serve) = s.seen.src.length + 1 ∧ es.getLast?.any (·.srcDrive == .serve) = true) ∧
    dec [] = .underflow := by decide

/-- `ENC 300` with a sink that acknowledges at once. -/
def encode300 : State := idle [offerWord 0x1000000000000012C, ackEdge, ackEdge]

/-- Two idle cores with different register contents and the same surroundings; three steps report an outcome. -/
theorem witness_OutcomesDoNotDependOnOldRegisters :
    (let s' : State := { encode300 with rem := 7, cnt := 9, acc := 5, fac := 3, res := 8, st := 2, xcode := 1, op := 4 };
      encode300.busy = false ∧ s'.busy = false ∧ s'.snk = encode300.snk ∧ s'.src = encode300.src ∧
        s'.srcCur = encode300.srcCur ∧ s'.pc = encode300.pc ∧ s'.outcomes = encode300.outcomes ∧
        s'.inputs = encode300.inputs) ∧
    ((nextOf (run 3 encode300)).map fun t => t.outcomes) = some [⟨some 2, 0, 0⟩] ∧ encode300.outcomes = [] := by
  decide

end Sys2Proof.Tests
end

section
/-! The scope family (00_scope.md): significant bits and `length` as arithmetic (R4, R60, R85), and the two's complement
reading of a word (R2). -/

namespace Sys2Proof.Machine

/-! ### Significant bits -/

@[simp] theorem sb_zero : sb 0#64 = 0 := by decide

theorem sb_le (u : Word) : sb u ≤ 64 := Nat.sub_le _ _

theorem toNat_lt_two_pow_sb (u : Word) : u.toNat < 2 ^ sb u := by
  obtain ⟨_, hlt, _⟩ := clzFrom_spec u 64
  rwa [Nat.mod_eq_of_lt u.isLt] at hlt

theorem sb_pos {u : Word} (h : u ≠ 0) : 1 ≤ sb u := by
  by_contra hsb
  have hlt := toNat_lt_two_pow_sb u
  rw [show sb u = 0 by omega] at hlt
  exact h (BitVec.eq_of_toNat_eq (by simpa using hlt))

theorem two_pow_sb_sub_one_le {u : Word} (h : u ≠ 0) : 2 ^ (sb u - 1) ≤ u.toNat := by
  obtain ⟨_, _, hle⟩ := clzFrom_spec u 64
  rw [Nat.mod_eq_of_lt u.isLt] at hle
  exact hle (Nat.lt_of_sub_pos (sb_pos h))

/-- `sb u` is the least number of bits that hold `u`. -/
theorem sb_le_iff (u : Word) (n : Nat) : sb u ≤ n ↔ u.toNat < 2 ^ n := by
  constructor
  · intro h
    exact (toNat_lt_two_pow_sb u).trans_le (Nat.pow_le_pow_right two_pos h)
  · intro h
    by_cases hu : u = 0
    · simp [hu]
    · have hexp : sb u - 1 < n := (Nat.pow_lt_pow_iff_right one_lt_two).1 ((two_pow_sb_sub_one_le hu).trans_lt h)
      omega

/-! ### The length function -/

@[simp] theorem length_zero : length 0#64 = 1 := rfl

theorem length_of_ne_zero {u : Word} (h : u ≠ 0) : length u = (sb u + 6) / 7 := if_neg h

theorem length_pos (u : Word) : 1 ≤ length u := by
  by_cases hu : u = 0
  · simp [hu]
  · have := sb_pos hu
    rw [length_of_ne_zero hu]
    omega

/-- `length u` is the least `n ≥ 1` with `u < 2^(7n)` (R60). -/
theorem length_le_iff (u : Word) {n : Nat} (hn : 1 ≤ n) : length u ≤ n ↔ u.toNat < 2 ^ (7 * n) := by
  by_cases hu : u = 0
  · simp [hu, hn]
  · rw [← sb_le_iff, length_of_ne_zero hu]
    omega

theorem length_le_ten (u : Word) : length u ≤ 10 :=
  (length_le_iff u (by norm_num)).2 (u.isLt.trans (by norm_num))

theorem toNat_lt_two_pow_length (u : Word) : u.toNat < 2 ^ (7 * length u) :=
  (length_le_iff u (length_pos u)).1 le_rfl

/-- A value that fits one group has length 1. -/
theorem length_of_le_127 {u : Word} (h : u.toNat ≤ 127) : length u = 1 :=
  le_antisymm ((length_le_iff u le_rfl).2 (by omega)) (length_pos u)

theorem shr7_lt_iff (u : Word) (n : Nat) : (u >>> 7).toNat < 2 ^ (7 * n) ↔ u.toNat < 2 ^ (7 * (n + 1)) := by
  rw [shr7_toNat, mul_add, pow_add]
  omega

/-- Each turn of the encode loop takes one group off a longer value. -/
theorem length_eq_length_shr7_add_one {u : Word} (h : 127 < u.toNat) : length u = length (u >>> 7) + 1 := by
  have hshr : ∀ n, 1 ≤ n → (length (u >>> 7) ≤ n ↔ length u ≤ n + 1) := fun n hn => by
    rw [length_le_iff _ hn, length_le_iff _ n.succ_pos, shr7_lt_iff]
  have htwo : ¬ length u ≤ 1 := by
    rw [length_le_iff u le_rfl]
    omega
  apply le_antisymm
  · exact (hshr _ (length_pos _)).1 le_rfl
  · have hle := (hshr (length u - 1) (by omega)).2 (by omega)
    omega

/-- With turns enough for the value, the encode loop puts `length` bytes. -/
theorem encLoop_length (fuel : Nat) (u : Word) (h : u.toNat < 2 ^ (7 * (fuel + 1))) :
    (encLoop fuel u).length = length u := by
  induction fuel generalizing u with
  | zero =>
    have hu : u.toNat ≤ 127 := Nat.le_of_lt_succ h
    simp [encLoop_small 0 u hu, length_of_le_127 hu]
  | succ fuel ih =>
    by_cases hu : u.toNat ≤ 127
    · simp [encLoop_small _ u hu, length_of_le_127 hu]
    · have hmore : 127 < u.toNat := Nat.lt_of_not_le hu
      have hrest := ih (u >>> 7) ((shr7_lt_iff u _).2 h)
      simp [encLoop, (moreGroups_iff u).2 hmore, hrest, length_eq_length_shr7_add_one hmore]

/-- The byte count of an encoding is `length` (R60). -/
theorem enc_length (u : Word) : (enc u).length = length u :=
  encLoop_length 9 u (u.isLt.trans (by norm_num))

/-! ### Two's complement -/

/-- `signed` is the library's signed reading of a bit vector, as `twos` is its `BitVec.ofInt`. -/
theorem signed_eq_toInt (r : Word) : signed r = r.toInt := by
  rw [BitVec.toInt_eq_toNat_cond, signed]
  split <;> split <;> omega

theorem signed_of_lt {r : Word} (h : r.toNat < 2 ^ 63) : signed r = r.toNat := if_pos h

theorem signed_of_ge {r : Word} (h : 2 ^ 63 ≤ r.toNat) : signed r = (r.toNat : Int) - 2 ^ 64 := if_neg h.not_gt

theorem le_signed (r : Word) : -(2 ^ 63) ≤ signed r := by
  rw [signed_eq_toInt]
  exact BitVec.le_toInt r

theorem signed_lt (r : Word) : signed r < 2 ^ 63 := by
  rw [signed_eq_toInt]
  exact BitVec.toInt_lt

@[simp] theorem twos_signed (r : Word) : twos (signed r) = r := by
  rw [signed_eq_toInt, twos, BitVec.ofInt_toInt]

theorem signed_twos {z : Int} (hlo : -(2 ^ 63) ≤ z) (hhi : z < 2 ^ 63) : signed (twos z) = z := by
  rw [signed_eq_toInt, twos]
  exact BitVec.toInt_ofInt_eq_self (by norm_num) hlo hhi

/-! ### The obligations -/

/-- Settles O25: `length` is fixed by `sb`, whose bounds give the least byte count, and the encode loop puts as many bytes. -/
theorem lengthIsTheLeastByteCount : Obligations.LengthIsTheLeastByteCount := by
  intro u
  refine ⟨?_, ?_, length_pos u, length_le_ten u, toNat_lt_two_pow_length u, ?_, enc_length u,
    length_pos _, length_le_ten _, by decide, by decide⟩
  · rintro rfl
    exact ⟨length_zero, sb_zero⟩
  · intro hu
    exact ⟨length_of_ne_zero hu, sb_pos hu, sb_le u, two_pow_sb_sub_one_le hu, toNat_lt_two_pow_sb u⟩
  · intro n hn hlt
    exact (length_le_iff u hn).2 hlt

/-- Settles O38: `signed` and `twos` are inverse between the words and the 64-bit signed integers. -/
theorem twosComplement : Obligations.TwosComplement := by
  constructor
  · intro r
    exact ⟨signed_of_lt, signed_of_ge, le_signed r, signed_lt r, twos_signed r⟩
  · intro z hlo hhi
    exact signed_twos hlo hhi

end Sys2Proof.Machine
end

section
/-! The state family (10_state.md): the invariant of the registers, who may write `BUSY` and the result registers, what a
step reads of its ports, and that no run depends on what the registers held before it. -/

namespace Sys2Proof.Machine

/-! ### The commands and their opcodes -/

theorem isEncoderOp_of_encode {i : Instr} {v : Word} (h : i = .enc v ∨ ∃ a, i = .senc a ∧ v = unsign a) :
    isEncoderOp i.opcode = true := by
  obtain rfl | ⟨a, rfl, -⟩ := h <;> rfl

theorem isDecoderOp_of_decode {i : Instr} (h : i = .dec ∨ i = .sdec) : isDecoderOp i.opcode = true := by
  obtain rfl | rfl := h <;> rfl

theorem pureResult_of_encode {i : Instr} {v : Word} (h : i = .enc v ∨ ∃ a, i = .senc a ∧ v = unsign a) :
    pureResult i = none := by
  obtain rfl | ⟨a, rfl, -⟩ := h <;> rfl

theorem pureResult_of_decode {i : Instr} (h : i = .dec ∨ i = .sdec) : pureResult i = none := by
  obtain rfl | rfl := h <;> rfl

theorem length_word_le_ten (u : Word) : (BitVec.ofNat 64 (length u)).toNat ≤ 10 := by
  rw [BitVec.toNat_ofNat]
  exact (Nat.mod_le _ _).trans (length_le_ten u)

/-- The pure commands whose result is a byte count are `LEN` (0) and `SLEN` (4); their results fit R56. -/
theorem pureResult_count_le_ten {i : Instr} {v : Word} (h : pureResult i = some v)
    (ho : i.opcode = 0 ∨ i.opcode = 4 ∨ isEncoderOp i.opcode = true) : v.toNat ≤ 10 := by
  cases i with
  | len u => cases h; exact length_word_le_ten u
  | slen a => cases h; exact length_word_le_ten (unsign a)
  | zze a => simp [Instr.opcode, isEncoderOp] at ho
  | zzd u => simp [Instr.opcode, isEncoderOp] at ho
  | enc u => cases h
  | dec => cases h
  | senc a => cases h
  | sdec => cases h

/-! ### The invariant, one lemma per operation -/

theorem cnt_succ_toNat {c : BitVec 4} (h : c.toNat ≤ 9) : (c + 1).toNat = c.toNat + 1 := by
  rw [BitVec.toNat_add]
  exact Nat.mod_eq_of_lt (by simp; omega)

theorem snkValid_of_encoder {s : State} (hb : s.busy = true) (ho : isEncoderOp s.op = true) : s.snkValid = true := by
  simp [State.snkValid, hb, ho]

theorem srcReq_of_decoder {s : State} (hb : s.busy = true) (ho : isDecoderOp s.op = true) : s.srcReq = true := by
  simp [State.srcReq, hb, ho]

theorem snkValid_of_decoder {s : State} (ho : isDecoderOp s.op = true) : s.snkValid = false := by
  simp [State.snkValid, not_encoder_of_decoder ho]

theorem srcReq_of_encoder {s : State} (ho : isEncoderOp s.op = true) : s.srcReq = false := by
  simp [State.srcReq, not_decoder_of_encoder ho]

theorem payload_le (b : Byte) : (payload b).toNat ≤ 127 := by
  rw [payload_toNat]
  omega

/-- Below the tenth byte the accumulator takes the payload without a carry (R119). -/
theorem acc_add_toNat {acc fac : Word} {k : Nat} (hk : k ≤ 8) (hf : fac.toNat = 2 ^ (7 * k))
    (ha : acc.toNat < 2 ^ (7 * k)) (b : Byte) :
    (acc + fac * payload b).toNat = acc.toNat + 2 ^ (7 * k) * (payload b).toNat := by
  have hpow : 2 ^ (7 * k) ≤ 2 ^ 56 := Nat.pow_le_pow_right two_pos (by omega)
  have hmul : 2 ^ (7 * k) * (payload b).toNat ≤ 2 ^ (7 * k) * 127 := Nat.mul_le_mul_left _ (payload_le b)
  rw [BitVec.toNat_add, BitVec.toNat_mul, hf]
  omega

theorem shl7_toNat (r : Word) : (r <<< 7).toNat = r.toNat * 128 % 2 ^ 64 := by
  simp [Nat.shiftLeft_eq]

/-- One more byte: the multiplier moves up one group, or falls out of the word after the tenth (R112, R119). -/
theorem State.decoderInv.accumulate {s : State} (h : s.decoderInv) (b : Byte) : (s.accumulate b).decoderInv := by
  obtain hf | ⟨k, hk, hf, ha⟩ := h
  · exact .inl (by simp [hf])
  · by_cases hk9 : k = 9
    · subst hk9
      refine .inl (BitVec.eq_of_toNat_eq ?_)
      rw [State.accumulate_fac, shl7_toNat, hf]
      rfl
    · have hpow : 2 ^ (7 * (k + 1)) = 2 ^ (7 * k) * 128 := pow_add 2 (7 * k) 7
      have hsmall : 2 ^ (7 * k) ≤ 2 ^ 56 := Nat.pow_le_pow_right two_pos (by omega)
      have hp : 2 ^ (7 * k) * (payload b).toNat ≤ 2 ^ (7 * k) * 127 := Nat.mul_le_mul_left _ (payload_le b)
      refine .inr ⟨k + 1, by omega, ?_, ?_⟩
      · rw [State.accumulate_fac, shl7_toNat, hf, hpow]
        omega
      · rw [State.accumulate_acc, acc_add_toNat (by omega) hf ha, hpow]
        omega

theorem State.Inv.seen {s : State} (h : s.Inv) : s.seen.Inv :=
  ⟨h.st_legal, h.xcode_zero, h.busy_streams, h.cnt_le, h.encode_room, h.decoder, h.count_result, h.outcomes_ok⟩

section
variable {s : State}

theorem outcomes_ok_append {l : List HostOutcome} {o : HostOutcome} (hl : ∀ o ∈ l, o.ok) (ho : o.ok) :
    ∀ p ∈ l ++ [o], p.ok :=
  List.forall_mem_append.2 ⟨hl, List.forall_mem_singleton.2 ho⟩

theorem State.Inv.resetRegs (h : s.Inv) : s.resetRegs.Inv where
  st_legal := by simp
  xcode_zero := by simp
  busy_streams := by simp
  cnt_le := by simp
  encode_room := by simp [State.snkValid]
  decoder := by simp [State.srcReq]
  count_result := by simp
  outcomes_ok := h.outcomes_ok

/-- A normal completion keeps the invariant when a count it reports is one (R56, R76). -/
theorem State.Inv.complete {v : Word} (hc : s.cnt.toNat ≤ 10) (ho : ∀ o ∈ s.outcomes, o.ok)
    (hv : s.op = 0 ∨ s.op = 4 ∨ isEncoderOp s.op = true → v.toNat ≤ 10) : (s.complete v).Inv where
  st_legal := by simp [stOk]
  xcode_zero := by simp
  busy_streams := by simp
  cnt_le := hc
  encode_room := by simp [State.snkValid]
  decoder := by simp [State.srcReq]
  count_result := fun _ _ => hv
  outcomes_ok := outcomes_ok_append ho (.inl ⟨rfl, rfl, rfl⟩)

/-- A failed completion keeps the invariant when its status and code are of R160. -/
theorem State.Inv.failCompletion {c : BitVec 2} {x : Byte} (hc : s.cnt.toNat ≤ 10) (ho : ∀ o ∈ s.outcomes, o.ok)
    (hx : c = stUnderflow ∧ x = 0 ∨ c = stExt) : (s.failCompletion c x).Inv where
  st_legal := by obtain ⟨rfl, -⟩ | rfl := hx <;> simp [stUnderflow, stExt]
  xcode_zero := by obtain ⟨-, rfl⟩ | rfl := hx <;> simp
  busy_streams := by simp
  cnt_le := hc
  encode_room := by simp [State.snkValid]
  decoder := by simp [State.srcReq]
  count_result := by obtain ⟨rfl, -⟩ | rfl := hx <;> simp [stUnderflow, stExt, stOk]
  outcomes_ok := outcomes_ok_append ho <| by
    obtain ⟨rfl, rfl⟩ | rfl := hx
    · exact .inr (.inl ⟨rfl, rfl, rfl⟩)
    · exact .inr (.inr ⟨rfl, rfl⟩)

/-- Loading an encode keeps the invariant: ten bytes are room for every value (R73, R101). -/
theorem State.Inv.startEncode (h : s.Inv) {o : Opcode} (ho : isEncoderOp o = true) (v : Word) :
    ((s.accept o).startEncode v).Inv where
  st_legal := h.st_legal
  xcode_zero := h.xcode_zero
  busy_streams := by simp [isStreamingOp, ho]
  cnt_le := by simp
  encode_room := by simpa using fun _ => length_le_ten v
  decoder := by simp [srcReq_of_encoder (s := (s.accept o).startEncode v) ho]
  count_result := by simp
  outcomes_ok := h.outcomes_ok

/-- Loading a decode keeps the invariant: it starts with `FAC = 2^0` and `ACC = 0` (R73, R119). -/
theorem State.Inv.startDecode (h : s.Inv) {o : Opcode} (ho : isDecoderOp o = true) :
    (s.accept o).startDecode.Inv where
  st_legal := h.st_legal
  xcode_zero := h.xcode_zero
  busy_streams := by simp [isStreamingOp, ho]
  cnt_le := h.cnt_le
  encode_room := by simp [snkValid_of_decoder (s := (s.accept o).startDecode) ho]
  decoder := fun _ => .inr ⟨0, by simp⟩
  count_result := by simp
  outcomes_ok := h.outcomes_ok

/-- An acknowledged byte with more to come moves one from `length(REM)` to `CNT` (R98, R101). -/
theorem State.Inv.encodeAdvance (h : s.Inv) (hb : s.busy = true) (ho : isEncoderOp s.op = true)
    (hm : 127 < s.rem.toNat) (out : List Byte) :
    State.Inv { s with snk := out, cnt := s.cnt + 1, rem := s.rem >>> 7 } := by
  have hroom : s.cnt.toNat + length s.rem ≤ 10 := h.encode_room (snkValid_of_encoder hb ho)
  have hlen := length_eq_length_shr7_add_one hm
  have hcnt : (s.cnt + 1).toNat = s.cnt.toNat + 1 := cnt_succ_toNat (by omega)
  exact {
    st_legal := h.st_legal
    xcode_zero := h.xcode_zero
    busy_streams := h.busy_streams
    cnt_le := by simp only [hcnt]; omega
    encode_room := fun _ => by simp only [hcnt]; omega
    decoder := h.decoder
    count_result := h.count_result
    outcomes_ok := h.outcomes_ok }

/-- A byte with more to come keeps the invariant (R112, R119). -/
theorem State.Inv.decodeAdvance (h : s.Inv) (hb : s.busy = true) (ho : isDecoderOp s.op = true) (bs : List Byte)
    (n : Nat) (b : Byte) : (({ s with src := bs, srcCur := n } : State).accumulate b).Inv where
  st_legal := h.st_legal
  xcode_zero := h.xcode_zero
  busy_streams := h.busy_streams
  cnt_le := h.cnt_le
  encode_room := h.encode_room
  decoder := fun _ => State.decoderInv.accumulate (h.decoder (srcReq_of_decoder hb ho)) b
  count_result := h.count_result
  outcomes_ok := h.outcomes_ok

end

/-- The opcode of a decode is none of those whose result is a byte count. -/
theorem not_count_of_decoder {o : Opcode} (h : isDecoderOp o = true) :
    ¬ (o = 0 ∨ o = 4 ∨ isEncoderOp o = true) := by
  revert o; decide

/-- Whatever a step does, the invariant stays. -/
theorem StepCase.inv {s t : State} (hc : StepCase s t) (h : s.Inv) : t.Inv := by
  cases hc with
  | reset => exact h.seen.resetRegs
  | idle => exact h.seen
  | pure hr hb hv v hi => exact .complete h.cnt_le h.outcomes_ok (pureResult_count_le_ten hi)
  | encode hr hb hv v hi => exact h.seen.startEncode (isEncoderOp_of_encode hi) v
  | decode hr hb hv hi => exact h.seen.startDecode (isDecoderOp_of_decode hi)
  | stall => exact h.seen
  | encMore hr hb ho hk hx hm => exact h.seen.encodeAdvance hb ho hm _
  | encLast hr hb ho hk hx hm =>
    have hroom : s.cnt.toNat + length s.rem ≤ 10 := h.encode_room (snkValid_of_encoder hb ho)
    have hpos := length_pos s.rem
    have hcnt : (s.cnt + 1).toNat = s.cnt.toNat + 1 := cnt_succ_toNat (by omega)
    have hle : (s.cnt + 1).toNat ≤ 10 := by omega
    exact .complete hle h.outcomes_ok fun _ => by
      rw [BitVec.toNat_setWidth]
      exact (Nat.mod_le _ _).trans hle
  | encFail => exact .failCompletion h.cnt_le h.outcomes_ok (.inr rfl)
  | decMore hr hb ho b bs => exact h.seen.decodeAdvance hb ho bs _ b
  | decLast hr hb ho => exact .complete h.cnt_le h.outcomes_ok fun hop => absurd hop (not_count_of_decoder ho)
  | decFail hr hb ho c x hst =>
    refine .failCompletion h.cnt_le h.outcomes_ok ?_
    obtain ⟨rfl, rfl, -⟩ | ⟨rfl, -⟩ := hst
    · exact .inl ⟨rfl, rfl⟩
    · exact .inr rfl

theorem reset_inv : State.reset.Inv where
  st_legal := by decide
  xcode_zero := fun _ => rfl
  busy_streams := by decide
  cnt_le := by decide
  encode_room := by decide
  decoder := fun h => absurd h (by decide)
  count_result := by decide
  outcomes_ok := fun o ho => absurd ho List.not_mem_nil

/-- Settles O43: each of the operations a step is made of keeps the invariant. -/
theorem stepKeepsInvariant : Obligations.StepKeepsInvariant :=
  fun _ _ h hst => (step_next_cases hst).inv h

/-- Settles O42. -/
theorem resetMeetsInvariant : Obligations.ResetMeetsInvariant := reset_inv

/-! ### The step by its ports: reset, acceptance, idle ports -/

/-- The edge that `withFetchWord` puts in front is the only one it adds, and it brings nothing but the command (log 2). -/
theorem seen_withFetchWord (s : State) (nbits w : Nat) : (s.withFetchWord nbits w).seen = { s with busy := false } := by
  simp [State.withFetchWord, State.offerNext, State.seen, State.nextIn, State.present, offerEdge]

theorem nextIn_withFetchWord (s : State) (nbits w : Nat) :
    (s.withFetchWord nbits w).nextIn = offerEdge (BitVec.ofNat 67 (w % 2 ^ nbits)) := rfl

theorem command_offerEdge (w : Cmd) : (offerEdge w).command = decode w := congrArg decode (mkCmd_fields w)

theorem decode_of_decodeTableWord {nbits w : Nat} {i : Instr} (h : decodeTableWord nbits w = some i) :
    decode (BitVec.ofNat 67 (w % 2 ^ nbits)) = i := by
  by_cases hw : w % 2 ^ nbits < 2 ^ 67
  · simpa only [decodeTableWord, decodeNat, if_pos hw, Option.some.injEq] using h
  · simp only [decodeTableWord, decodeNat, if_neg hw, reduceCtorEq] at h

/-- Settles O5. -/
theorem idleStepRunsTheOfferedCommand : Obligations.IdleStepRunsTheOfferedCommand := by
  constructor
  · intro s hb hr hv
    exact step_accept s hr hb hv
  · intro s nbits w i hi
    rw [step_accept (s.withFetchWord nbits w) rfl rfl rfl, nextIn_withFetchWord, command_offerEdge,
      decode_of_decodeTableWord hi, seen_withFetchWord]

/-- Settles O8: the reset state is written with the values of R29. -/
theorem resetValues : Obligations.ResetValues := by
  unfold Obligations.ResetValues
  decide

theorem seen_snk_of_busy {s : State} (hb : s.busy = true) : s.seen.snk = s.snk := by rw [State.seen_of_busy s hb]

theorem seen_src_of_busy {s : State} (hb : s.busy = true) : s.seen.src = s.src ++ s.nextIn.srcArrive := by
  rw [State.seen_of_busy s hb]

/-- Settles O9: a reset edge leaves `resetRegs` of the state the core sees. -/
theorem resetEdgeWins : Obligations.ResetEdgeWins := by
  intro s hr
  refine ⟨s.seen.resetRegs, step_reset s hr, rfl, rfl, rfl, rfl, rfl, rfl, rfl, rfl, rfl, rfl, rfl, rfl, rfl, rfl, rfl,
    rfl, rfl, rfl, rfl, rfl, ?_⟩
  intro hb
  exact ⟨seen_snk_of_busy hb, seen_src_of_busy hb⟩

/-- A busy core that is not encoding reads nothing of the sink's inputs. -/
theorem busyEdge_ignores_sink (e : EdgeIn) (s : State) (h : isEncoderOp s.op = false) (r x : Bool) (c : Byte)
    (kept : List Byte) :
    busyEdge { e with snkReady := r, snkErr := x, snkCode := c, snkKept := kept } s = busyEdge e s := by
  cases hd : isDecoderOp s.op with
  | true =>
    rw [busyEdge_decoder _ s hd, busyEdge_decoder _ s hd]
    rfl
  | false =>
    have hpure : isStreamingOp s.op = false := by simp [isStreamingOp, h, hd]
    rw [busyEdge_pure _ s hpure, busyEdge_pure _ s hpure]

/-- A busy core that is not decoding reads nothing of the source's inputs. -/
theorem busyEdge_ignores_source (e : EdgeIn) (s : State) (h : isDecoderOp s.op = false) (d : SrcDrive) :
    busyEdge { e with srcDrive := d } s = busyEdge e s := by
  cases ho : isEncoderOp s.op with
  | true =>
    rw [busyEdge_encoder _ s ho, busyEdge_encoder _ s ho]
    rfl
  | false =>
    have hpure : isStreamingOp s.op = false := by simp [isStreamingOp, h, ho]
    rw [busyEdge_pure _ s hpure, busyEdge_pure _ s hpure]

/-- Two edges with the same reset line and command port differ in a step only if its busy step tells them apart. -/
theorem clockEdge_congr {e e' : EdgeIn} {s : State} (hr : e'.rst = e.rst) (hv : e'.cmdValid = e.cmdValid)
    (ho : e'.cmdOp = e.cmdOp) (ha : e'.cmdArg = e.cmdArg) (h : s.busy = true → busyEdge e' s = busyEdge e s) :
    clockEdge e' s = clockEdge e s := by
  unfold clockEdge
  rw [hr, hv, ho, ha]
  cases hb : s.busy with
  | true => rw [h hb]
  | false => rfl

/-- Settles O49: only the busy step of an encode looks at the sink, and only that of a decode at the source. -/
theorem idlePortsAreIgnored : Obligations.IdlePortsAreIgnored := by
  intro s e es
  constructor
  · intro hk r x c kept
    refine clockEdge_congr rfl rfl rfl rfl fun hb => busyEdge_ignores_sink e _ ?_ r x c kept
    have hb' : s.busy = true := hb
    simpa [State.snkValid, hb'] using hk
  · intro hk d
    refine clockEdge_congr rfl rfl rfl rfl fun hb => busyEdge_ignores_source e _ ?_ d
    have hb' : s.busy = true := hb
    simpa [State.srcReq, hb'] using hk

/-! ### Who writes the result registers and `BUSY` -/

/-- What the result port says to a host that may read it: no `RES` after a failure (R166). -/
def State.readable (s : State) : HostOutcome := ⟨if s.st = stOk then some s.res else none, s.st, s.xcode⟩

theorem State.observe_of_idle {s : State} (h : s.busy = false) : s.observe = some s.readable := by
  simp [State.observe, State.readable, h]

theorem State.observe_of_busy {s : State} (h : s.busy = true) : s.observe = none := by
  simp [State.observe, h]

@[simp] theorem State.complete_readable (s : State) (v : Word) : (s.complete v).readable = ⟨some v, stOk, 0⟩ := rfl

theorem State.failCompletion_readable (s : State) {c : BitVec 2} (h : c ≠ stOk) (x : Byte) :
    (s.failCompletion c x).readable = ⟨none, c, x⟩ := by
  simp [State.readable, h]

/-- From `s` to `t` an operation ends: the core is idle and the one outcome sampled is what the result port shows. -/
def Completes (s t : State) : Prop := t.busy = false ∧ t.outcomes = s.outcomes ++ [t.readable]

/-- From `s` to `t` no operation ends: the result registers stay and a busy core stays busy. -/
def Continues (s t : State) : Prop :=
  t.outcomes = s.outcomes ∧ t.res = s.res ∧ t.st = s.st ∧ t.xcode = s.xcode ∧ (s.busy = true → t.busy = true)

theorem completes_complete {s u : State} (h : u.outcomes = s.outcomes) (v : Word) : Completes s (u.complete v) :=
  ⟨rfl, by simp [h]⟩

theorem completes_failCompletion {s u : State} (h : u.outcomes = s.outcomes) {c : BitVec 2} (hc : c ≠ stOk) (x : Byte) :
    Completes s (u.failCompletion c x) :=
  ⟨rfl, by simp [h, State.failCompletion_readable u hc]⟩

theorem Completes.sampled {s t : State} (h : Completes s t) :
    ∃ o, t.outcomes = s.outcomes ++ [o] ∧ t.observe = some o :=
  ⟨t.readable, h.2, State.observe_of_idle h.1⟩

/-- The status of a failed decode is not `OK` (R160). -/
theorem failure_ne_ok {c : BitVec 2} {p q : Prop} (h : c = stUnderflow ∧ p ∨ c = stExt ∧ q) : c ≠ stOk := by
  obtain ⟨rfl, -⟩ | ⟨rfl, -⟩ := h <;> decide

/-- Every step resets, ends an operation, or leaves the result registers alone (R20 to R22). -/
theorem StepCase.completes_or_continues {s t : State} (hc : StepCase s t) :
    s.nextIn.rst = true ∨ Completes s t ∨ Continues s t := by
  cases hc with
  | reset hr => exact .inl hr
  | pure | encLast | decLast => exact .inr (.inl (completes_complete rfl _))
  | encFail => exact .inr (.inl (completes_failCompletion rfl (by decide) _))
  | decFail hr hb ho c x hst => exact .inr (.inl (completes_failCompletion rfl (failure_ne_ok hst) x))
  | idle | stall | encMore | decMore => exact .inr (.inr ⟨rfl, rfl, rfl, rfl, id⟩)
  | encode | decode => exact .inr (.inr ⟨rfl, rfl, rfl, rfl, fun _ => rfl⟩)

/-- Only the acceptance of a streaming command makes an idle core busy (R14, R73). -/
theorem StepCase.accepts_of_busy {s t : State} (hc : StepCase s t) (hs : s.busy = false) (ht : t.busy = true) :
    ∃ i, s.nextIn.accepts i ∧ pureResult i = none := by
  cases hc with
  | encode hr hb hv v hi => exact ⟨_, ⟨hr, hv, rfl⟩, pureResult_of_encode hi⟩
  | decode hr hb hv hi => exact ⟨_, ⟨hr, hv, rfl⟩, pureResult_of_decode hi⟩
  | reset | pure => exact absurd ht (by simp)
  | idle => exact absurd ht (by simp [hs])
  | stall hr hb | encMore hr hb | encLast hr hb | encFail hr hb | decMore hr hb | decLast hr hb | decFail hr hb =>
    exact absurd hb (by simp [hs])

/-- Settles O45. -/
theorem busyChangesOnlyByRule : Obligations.BusyChangesOnlyByRule := by
  intro s t hst
  have hc := step_next_cases hst
  refine ⟨hc.accepts_of_busy, fun hs ht => ?_⟩
  obtain hr | hend | ⟨-, -, -, -, hbusy⟩ := hc.completes_or_continues
  · exact .inl hr
  · exact .inr hend.sampled
  · exact absurd (hbusy hs) (by simp [ht])

/-- Settles O46. -/
theorem resultRegistersChangeOnlyAtCompletion : Obligations.ResultRegistersChangeOnlyAtCompletion := by
  intro s t hst hr
  obtain hr' | hend | ⟨hout, hres, hstat, hcode, -⟩ := (step_next_cases hst).completes_or_continues
  · exact absurd hr' (by simp [hr])
  · exact .inr ⟨hend.1, hend.sampled⟩
  · exact .inl ⟨hout, hres, hstat, hcode⟩

/-! ### The converse of the inversion, and the steps that stop -/

/-- Each case of `StepCase` is a step: with `step_next_cases`, the cases are exactly the next states. -/
theorem StepCase.step_eq {s t : State} (hc : StepCase s t) : step s = .next t := by
  cases hc with
  | reset hr => exact step_reset s hr
  | idle hr hb hv => exact step_idle s hr hb hv
  | pure hr hb hv v hi => rw [step_accept s hr hb hv, exec_pure _ v s.seen hi hb]
  | encode hr hb hv v hi => rw [step_accept s hr hb hv, exec_encode _ v s.seen hi hb]
  | decode hr hb hv hi => rw [step_accept s hr hb hv, exec_decode _ s.seen hi hb]
  | stall hr hb hs =>
    rw [step_busy s hr hb]
    obtain ⟨ho, hk⟩ | ⟨ho, hd⟩ := hs
    · rw [busyEdge_encoder _ s.seen ho, encoderStep_wait _ _ hk]
    · rw [busyEdge_decoder _ s.seen ho, decoderStep_stall _ _ _ hd]
  | encMore hr hb ho hk hx hm =>
    rw [step_busy s hr hb, busyEdge_encoder _ s.seen ho, encoderStep_more _ s.seen hk hx hm]
    rfl
  | encLast hr hb ho hk hx hm =>
    rw [step_busy s hr hb, busyEdge_encoder _ s.seen ho, encoderStep_last _ s.seen hk hx hm]
    rfl
  | encFail hr hb ho hk hx =>
    rw [step_busy s hr hb, busyEdge_encoder _ s.seen ho, encoderStep_xerr _ s.seen hk hx]
    rfl
  | decMore hr hb ho b bs hd hs hc =>
    rw [step_busy s hr hb, busyEdge_decoder _ s.seen ho, decoderStep_more _ _ s.seen b bs hd hs hc]
    rfl
  | decLast hr hb ho b bs hd hs hc =>
    rw [step_busy s hr hb, busyEdge_decoder _ s.seen ho, decoderStep_last _ _ s.seen b bs hd hs hc]
    rfl
  | decFail hr hb ho c x hst =>
    rw [step_busy s hr hb, busyEdge_decoder _ s.seen ho]
    obtain ⟨rfl, rfl, hd⟩ | ⟨rfl, hd⟩ := hst
    · exact decoderStep_empty _ _ _ hd
    · exact decoderStep_fail _ _ _ x hd

theorem exec_next_of_idle (i : Instr) {s : State} (hb : s.busy = false) : ∃ t, exec i s = .next t := by
  obtain ⟨v, hi⟩ | ⟨v, hi⟩ | hi := instr_shapes i
  · exact ⟨_, exec_pure i v s hi hb⟩
  · exact ⟨_, exec_encode i v s hi hb⟩
  · exact ⟨_, exec_decode i s hi hb⟩

theorem encoderStep_next (e : EdgeIn) (s : State) : ∃ t, encoderStep e s = .next t := by
  cases hk : e.snkReady with
  | false => exact ⟨_, encoderStep_wait e s hk⟩
  | true =>
    cases hx : e.snkErr with
    | true => exact ⟨_, encoderStep_xerr e s hk hx⟩
    | false =>
      obtain hm | hm := Nat.lt_or_ge 127 s.rem.toNat
      · exact ⟨_, encoderStep_more e s hk hx hm⟩
      · exact ⟨_, encoderStep_last e s hk hx hm⟩

theorem decoderStep_next_or_reserved (result : Word → Word) (e : EdgeIn) (s : State) :
    (∃ t, decoderStep result e s = .next t) ∨ decoderStep result e s = .fault .srcKindReserved := by
  cases hd : e.srcDrive with
  | stall => exact .inl ⟨_, decoderStep_stall _ _ _ hd⟩
  | empty => exact .inl ⟨_, decoderStep_empty _ _ _ (.inr hd)⟩
  | fail c => exact .inl ⟨_, decoderStep_fail _ _ _ c hd⟩
  | reserved d => exact .inr (decoderStep_reserved _ _ _ d hd)
  | serve =>
    cases hs : s.src with
    | nil => exact .inl ⟨_, decoderStep_empty _ _ _ (.inl ⟨hd, hs⟩)⟩
    | cons b bs =>
      cases hc : contBit b with
      | true => exact .inl ⟨_, decoderStep_more _ _ _ b bs hd hs hc⟩
      | false => exact .inl ⟨_, decoderStep_last _ _ _ b bs hd hs hc⟩

/-- Unless a pure opcode stands in `OP` of a busy core, only the source's breach stops a step (R78, U6). -/
theorem step_next_or_reserved {s : State} (h : s.busy = true → isStreamingOp s.op = true) :
    (∃ t, step s = .next t) ∨ step s = .fault .srcKindReserved := by
  cases hr : s.nextIn.rst with
  | true => exact .inl ⟨_, step_reset s hr⟩
  | false =>
    cases hb : s.busy with
    | true =>
      rw [step_busy s hr hb]
      obtain ho | ho : isEncoderOp s.op = true ∨ isDecoderOp s.op = true := by simpa [isStreamingOp] using h hb
      · rw [busyEdge_encoder _ s.seen ho]
        exact .inl (encoderStep_next _ _)
      · rw [busyEdge_decoder _ s.seen ho]
        exact decoderStep_next_or_reserved _ _ _
    | false =>
      cases hv : s.nextIn.cmdValid with
      | true => rw [step_accept s hr hb hv]; exact .inl (exec_next_of_idle (s := s.seen) _ hb)
      | false => exact .inl ⟨_, step_idle s hr hb hv⟩

/-! ### Old register contents do not matter (R23) -/

/-- What is not a register of the core: the streams, the host's records and the coming edges (R24). -/
structure Surroundings where
  snk : List Byte
  src : List Byte
  srcCur : Nat
  pc : Nat
  outcomes : List HostOutcome
  inputs : List EdgeIn

def State.surroundings (s : State) : Surroundings := ⟨s.snk, s.src, s.srcCur, s.pc, s.outcomes, s.inputs⟩

theorem surroundings_eq_iff {s s' : State} : s'.surroundings = s.surroundings ↔
    s'.snk = s.snk ∧ s'.src = s.src ∧ s'.srcCur = s.srcCur ∧ s'.pc = s.pc ∧ s'.outcomes = s.outcomes ∧
      s'.inputs = s.inputs := by
  simp [State.surroundings]

/-- Two states in which a run is the same run: the same surroundings, and of the registers only those equal that the running
operation still uses (R23). -/
inductive SameRun (s s' : State) : Prop
  | idle (hb : s.busy = false) (hb' : s'.busy = false) (hw : s'.surroundings = s.surroundings)
  | encode (hb : s.busy = true) (hb' : s'.busy = true) (ho : isEncoderOp s.op = true) (hop : s'.op = s.op)
      (hrem : s'.rem = s.rem) (hcnt : s'.cnt = s.cnt) (hw : s'.surroundings = s.surroundings)
  | decode (hb : s.busy = true) (hb' : s'.busy = true) (ho : isDecoderOp s.op = true) (hop : s'.op = s.op)
      (hacc : s'.acc = s.acc) (hfac : s'.fac = s.fac) (hw : s'.surroundings = s.surroundings)

namespace SameRun
variable {s s' : State}

theorem around (h : SameRun s s') : s'.surroundings = s.surroundings := by cases h <;> assumption

theorem busy_eq (h : SameRun s s') : s'.busy = s.busy := by cases h <;> simp [*]

theorem symm (h : SameRun s s') : SameRun s' s := by
  cases h with
  | idle hb hb' hw => exact .idle hb' hb hw.symm
  | encode hb hb' ho hop hrem hcnt hw => exact .encode hb' hb (hop ▸ ho) hop.symm hrem.symm hcnt.symm hw.symm
  | decode hb hb' ho hop hacc hfac hw => exact .decode hb' hb (hop ▸ ho) hop.symm hacc.symm hfac.symm hw.symm

theorem streaming (h : SameRun s s') (hb : s.busy = true) : isStreamingOp s.op = true := by
  cases h with
  | idle hb₀ => exact absurd hb (by simp [hb₀])
  | encode _ _ ho | decode _ _ ho => simp [isStreamingOp, ho]

theorem encoder (h : SameRun s s') (hb : s.busy = true) (ho : isEncoderOp s.op = true) :
    s'.op = s.op ∧ s'.rem = s.rem ∧ s'.cnt = s.cnt := by
  cases h with
  | idle hb₀ => exact absurd hb (by simp [hb₀])
  | encode _ _ _ hop hrem hcnt => exact ⟨hop, hrem, hcnt⟩
  | decode _ _ hd => exact absurd ho (by simp [not_encoder_of_decoder hd])

theorem snkData_eq (h : SameRun s s') (hb : s.busy = true) (ho : isEncoderOp s.op = true) : s'.snkData = s.snkData := by
  rw [State.snkData, State.snkData, (h.encoder hb ho).2.1]

theorem decoder (h : SameRun s s') (hb : s.busy = true) (ho : isDecoderOp s.op = true) :
    s'.op = s.op ∧ s'.acc = s.acc ∧ s'.fac = s.fac := by
  cases h with
  | idle hb₀ => exact absurd hb (by simp [hb₀])
  | encode _ _ he => exact absurd ho (by simp [not_decoder_of_encoder he])
  | decode _ _ _ hop hacc hfac => exact ⟨hop, hacc, hfac⟩

theorem nextIn_eq (h : SameRun s s') : s'.nextIn = s.nextIn :=
  congrArg (fun w : Surroundings => w.inputs.headD EdgeIn.quiet) h.around

/-- The environment acts alike on both. -/
theorem seen_around (h : SameRun s s') : s'.seen.surroundings = s.seen.surroundings := by
  obtain ⟨hsnk, hsrc, hcur, hpc, hout, hin⟩ := surroundings_eq_iff.1 h.around
  simp [State.surroundings, State.seen, State.present, h.busy_eq, h.nextIn_eq, *]

theorem seen (h : SameRun s s') : SameRun s.seen s'.seen := by
  have hw := h.seen_around
  cases h with
  | idle hb hb' => exact .idle hb hb' hw
  | encode hb hb' ho hop hrem hcnt => exact .encode hb hb' ho hop hrem hcnt hw
  | decode hb hb' ho hop hacc hfac => exact .decode hb hb' ho hop hacc hfac hw

end SameRun

/-- The two runs go on alike from `s`, `s'` to `t`, `t'`: they stay the same run, and what the host may read agrees after an
outcome reported on the way, or if it agreed before. -/
def SameProgress (s s' t t' : State) : Prop :=
  SameRun t t' ∧ (t.outcomes ≠ s.outcomes ∨ s'.readable = s.readable → t'.readable = t.readable)

theorem SameProgress.trans {s s' u u' t t' : State} (h₁ : SameProgress s s' u u') (h₂ : SameProgress u u' t t') :
    SameProgress s s' t t' := by
  refine ⟨h₂.1, fun h => h₂.2 ?_⟩
  by_cases hu : u.outcomes = s.outcomes
  · rw [hu]
    exact h.imp_right fun hread => h₁.2 (.inr hread)
  · exact .inr (h₁.2 (.inl hu))

/-- A step that reports nothing and leaves the result registers alone. -/
theorem SameProgress.of_kept {s s' t t' : State} (h : SameRun t t') (hout : t.outcomes = s.outcomes)
    (hread : t.readable = s.readable) (hread' : t'.readable = s'.readable) : SameProgress s s' t t' :=
  ⟨h, fun hor => by rw [hread, hread', hor.resolve_left (absurd hout)]⟩

theorem SameProgress.complete {s s' u u' : State} {v v' : Word} (hw : u'.surroundings = u.surroundings) (hv : v' = v) :
    SameProgress s s' (u.complete v) (u'.complete v') := by
  obtain ⟨hsnk, hsrc, hcur, hpc, hout, hin⟩ := surroundings_eq_iff.1 hw
  exact ⟨.idle rfl rfl (surroundings_eq_iff.2 (by simp [*])), fun _ => by simp [hv]⟩

theorem SameProgress.failCompletion {s s' u u' : State} {c : BitVec 2} (hc : c ≠ stOk) (x : Byte)
    (hw : u'.surroundings = u.surroundings) : SameProgress s s' (u.failCompletion c x) (u'.failCompletion c x) := by
  obtain ⟨hsnk, hsrc, hcur, hpc, hout, hin⟩ := surroundings_eq_iff.1 hw
  exact ⟨.idle rfl rfl (surroundings_eq_iff.2 (by simp [*])), fun _ => by
    rw [State.failCompletion_readable _ hc, State.failCompletion_readable _ hc]⟩

/-- An acceptance changes no stream and counts one command, whatever its opcode. -/
theorem surroundings_accept {s s' : State} (hw : s'.surroundings = s.surroundings) (o o' : Opcode) :
    (s'.accept o').surroundings = (s.accept o).surroundings :=
  congrArg (fun w : Surroundings => { w with pc := w.pc + 1 }) hw

/-- Whatever a step does from one of the two states it does from the other. -/
theorem StepCase.follow {s s' t : State} (hc : StepCase s t) (h : SameRun s s') :
    ∃ t', StepCase s' t' ∧ SameProgress s s' t t' := by
  have hn := h.nextIn_eq
  have hbusy := h.busy_eq
  have hw := h.seen_around
  have haccept := surroundings_accept hw s.nextIn.command.opcode s'.nextIn.command.opcode
  obtain ⟨hsnk, hsrc, hcur, hpc, hout, hin⟩ := surroundings_eq_iff.1 hw
  cases hc with
  | reset hr => exact ⟨_, .reset (hn ▸ hr), .idle rfl rfl hw, fun _ => rfl⟩
  | idle hr hb hv => exact ⟨_, .idle (hn ▸ hr) (hbusy.trans hb) (hn ▸ hv), .of_kept h.seen rfl rfl rfl⟩
  | pure hr hb hv v hi =>
    exact ⟨_, .pure (hn ▸ hr) (hbusy.trans hb) (hn ▸ hv) v (hn ▸ hi), .complete haccept rfl⟩
  | encode hr hb hv v hi =>
    refine ⟨_, .encode (hn ▸ hr) (hbusy.trans hb) (hn ▸ hv) v (hn ▸ hi), .of_kept ?_ rfl rfl rfl⟩
    exact .encode rfl rfl (isEncoderOp_of_encode hi) (by simp [hn]) rfl rfl haccept
  | decode hr hb hv hi =>
    refine ⟨_, .decode (hn ▸ hr) (hbusy.trans hb) (hn ▸ hv) (hn ▸ hi), .of_kept ?_ rfl rfl rfl⟩
    exact .decode rfl rfl (isDecoderOp_of_decode hi) (by simp [hn]) rfl rfl haccept
  | stall hr hb hs =>
    refine ⟨_, .stall (hn ▸ hr) (hbusy.trans hb) ?_, .of_kept h.seen rfl rfl rfl⟩
    obtain ⟨ho, hk⟩ | ⟨ho, hd⟩ := hs
    · exact .inl ⟨(h.encoder hb ho).1 ▸ ho, hn ▸ hk⟩
    · exact .inr ⟨(h.decoder hb ho).1 ▸ ho, hn ▸ hd⟩
  | encMore hr hb ho hk hx hm =>
    obtain ⟨hop, hrem, hcnt⟩ := h.encoder hb ho
    have hput : s'.seen.snk ++ [s'.snkData] = s.seen.snk ++ [s.snkData] := by rw [hsnk, h.snkData_eq hb ho]
    refine ⟨_, .encMore (hn ▸ hr) (hbusy.trans hb) (hop ▸ ho) (hn ▸ hk) (hn ▸ hx) (hrem ▸ hm),
      .of_kept ?_ rfl rfl rfl⟩
    exact .encode hb (hbusy.trans hb) ho hop (by simp [hrem]) (by simp [hcnt])
      (surroundings_eq_iff.2 ⟨hput, hsrc, hcur, hpc, hout, hin⟩)
  | encLast hr hb ho hk hx hm =>
    obtain ⟨hop, hrem, hcnt⟩ := h.encoder hb ho
    have hput : s'.seen.snk ++ [s'.snkData] = s.seen.snk ++ [s.snkData] := by rw [hsnk, h.snkData_eq hb ho]
    exact ⟨_, .encLast (hn ▸ hr) (hbusy.trans hb) (hop ▸ ho) (hn ▸ hk) (hn ▸ hx) (hrem ▸ hm),
      .complete (surroundings_eq_iff.2 ⟨hput, hsrc, hcur, hpc, hout, hin⟩) (by rw [hcnt])⟩
  | encFail hr hb ho hk hx =>
    obtain ⟨hop, -, -⟩ := h.encoder hb ho
    refine ⟨_, .encFail (hn ▸ hr) (hbusy.trans hb) (hop ▸ ho) (hn ▸ hk) (hn ▸ hx), ?_⟩
    rw [hn]
    exact .failCompletion (by decide) _
      (surroundings_eq_iff.2 ⟨congrArg (· ++ s.nextIn.snkKept) hsnk, hsrc, hcur, hpc, hout, hin⟩)
  | decMore hr hb ho b bs hd hs hc =>
    obtain ⟨hop, hacc, hfac⟩ := h.decoder hb ho
    refine ⟨_, .decMore (hn ▸ hr) (hbusy.trans hb) (hop ▸ ho) b bs (hn ▸ hd) (hsrc.trans hs) hc,
      .of_kept ?_ rfl rfl rfl⟩
    exact .decode hb (hbusy.trans hb) ho hop (by simp [hacc, hfac]) (by simp [hfac])
      (surroundings_eq_iff.2 ⟨hsnk, rfl, congrArg (· + 1) hcur, hpc, hout, hin⟩)
  | decLast hr hb ho b bs hd hs hc =>
    obtain ⟨hop, hacc, hfac⟩ := h.decoder hb ho
    exact ⟨_, .decLast (hn ▸ hr) (hbusy.trans hb) (hop ▸ ho) b bs (hn ▸ hd) (hsrc.trans hs) hc,
      .complete (surroundings_eq_iff.2 ⟨hsnk, rfl, congrArg (· + 1) hcur, hpc, hout, hin⟩) (by rw [hop, hacc, hfac])⟩
  | decFail hr hb ho c x hst =>
    obtain ⟨hop, -, -⟩ := h.decoder hb ho
    refine ⟨_, .decFail (hn ▸ hr) (hbusy.trans hb) (hop ▸ ho) c x ?_, .failCompletion (failure_ne_ok hst) x hw⟩
    rw [hn, hsrc]
    exact hst

/-- One step of each: both go on alike, or the source's breach stops both. -/
theorem SameRun.step {s s' : State} (h : SameRun s s') :
    (∃ t t', step s = .next t ∧ step s' = .next t' ∧ SameProgress s s' t t') ∨
      step s = .fault .srcKindReserved ∧ step s' = .fault .srcKindReserved := by
  obtain ⟨t, hst⟩ | hf := step_next_or_reserved h.streaming
  · obtain ⟨t', hc', hp⟩ := (step_next_cases hst).follow h
    exact .inl ⟨t, t', hst, hc'.step_eq, hp⟩
  · obtain ⟨t', hst'⟩ | hf' := step_next_or_reserved h.symm.streaming
    · obtain ⟨t, hc, -⟩ := (step_next_cases hst').follow h.symm
      exact absurd (hc.step_eq.symm.trans hf) (by simp)
    · exact .inr ⟨hf, hf'⟩

/-- Any number of steps of each: both go on alike, or the same fault stops both. -/
theorem SameRun.run {s s' : State} (h : SameRun s s') (n : Nat) :
    (∃ t t', run n s = .next t ∧ run n s' = .next t' ∧ SameProgress s s' t t') ∨
      ∃ f, run n s = .fault f ∧ run n s' = .fault f := by
  induction n generalizing s s' with
  | zero => exact .inl ⟨s, s', rfl, rfl, h, fun hor => hor.resolve_left (absurd rfl)⟩
  | succ n ih =>
    obtain ⟨u, u', hu, hu', hp⟩ | ⟨hf, hf'⟩ := h.step
    · rw [run_succ hu, run_succ hu']
      obtain ⟨t, t', ht, ht', hq⟩ | hstop := ih hp.1
      · exact .inl ⟨t, t', ht, ht', hp.trans hq⟩
      · exact .inr hstop
    · exact .inr ⟨_, run_succ_fault hf n, run_succ_fault hf' n⟩

theorem SameRun.handshake_eq {s s' : State} (h : SameRun s s') :
    s'.snkValid = s.snkValid ∧ s'.srcReq = s.srcReq ∧ (s.snkValid = true → s'.snkData = s.snkData) := by
  cases h with
  | idle hb hb' => simp [State.snkValid, State.srcReq, hb, hb']
  | encode hb hb' ho hop hrem => simp [State.snkValid, State.srcReq, State.snkData, hb, hb', hop, hrem]
  | decode hb hb' ho hop => simp [State.snkValid, State.srcReq, hb, hb', hop, not_encoder_of_decoder ho]

theorem observe_eq_of_readable {s s' : State} (hb : s'.busy = s.busy) (h : s'.readable = s.readable) :
    s'.observe = s.observe := by
  cases hs : s.busy with
  | true => rw [State.observe_of_busy hs, State.observe_of_busy (hb.trans hs)]
  | false => rw [State.observe_of_idle hs, State.observe_of_idle (hb.trans hs), h]

/-- Settles O54, by induction over the steps: the two runs stay the same run, because an acceptance loads every register its
command goes on to use. -/
theorem outcomesDoNotDependOnOldRegisters : Obligations.OutcomesDoNotDependOnOldRegisters := by
  intro s s' n hb hb' hsnk hsrc hcur hpc hout hin
  have h : SameRun s s' := .idle hb hb' (surroundings_eq_iff.2 ⟨hsnk, hsrc, hcur, hpc, hout, hin⟩)
  obtain ⟨t, t', ht, ht', hrun, hread⟩ | ⟨f, hf, hf'⟩ := h.run n
  · obtain ⟨hsnk, hsrc, hcur, hpc, hout, -⟩ := surroundings_eq_iff.1 hrun.around
    obtain ⟨hvalid, hreq, hdata⟩ := hrun.handshake_eq
    simp only [ht, ht']
    exact ⟨by simp [State.final, *], hrun.busy_eq, hpc, hcur, hvalid, hreq, hdata,
      fun hne => observe_eq_of_readable hrun.busy_eq (hread (.inl hne))⟩
  · simp only [hf, hf']

end Sys2Proof.Machine
end

section
/-! The memory family (20_memory.md): which step moves which stream, and the runs of an encode and of a decode, down to the
loop-back. -/

namespace Sys2Proof.Machine

/-! ### One step and the two streams -/

/-- The sink stays as the environment left it, or the running encode's offer is answered: `Ack` appends the offered byte,
`XErr` what the sink kept itself (R31, R36, R44). -/
theorem StepCase.sink {s t : State} (hc : StepCase s t) :
    t.snk = s.seen.snk ∨
      s.snkValid = true ∧ s.nextIn.rst = false ∧ s.nextIn.snkReady = true ∧
        (s.nextIn.snkErr = true ∨ t.snk = s.seen.snk ++ [s.snkData]) := by
  cases hc with
  | encMore hr hb ho hk hx | encLast hr hb ho hk hx => exact .inr ⟨snkValid_of_encoder hb ho, hr, hk, .inr rfl⟩
  | encFail hr hb ho hk hx => exact .inr ⟨snkValid_of_encoder hb ho, hr, hk, .inl hx⟩
  | reset | idle | pure | encode | decode | stall | decMore | decLast | decFail => exact .inl rfl

/-- The source stays as the environment left it, or the running decode's request takes its first byte (R32, R37, R44). -/
theorem StepCase.source {s t : State} (hc : StepCase s t) :
    t.src = s.seen.src ∧ t.srcCur = s.srcCur ∨
      s.srcReq = true ∧ ∃ b, s.seen.src = b :: t.src ∧ t.srcCur = s.srcCur + 1 := by
  cases hc with
  | decMore hr hb ho b bs hd hs | decLast hr hb ho b bs hd hs => exact .inr ⟨srcReq_of_decoder hb ho, b, hs, rfl⟩
  | reset | idle | pure | encode | decode | stall | encMore | encLast | encFail | decFail => exact .inl ⟨rfl, rfl⟩

theorem busy_of_snkValid {s : State} (h : s.snkValid = true) : s.busy = true :=
  (Bool.and_eq_true_iff.1 h).1

/-- Settles O48: only an answered offer moves the sink, and only an answered request the source. -/
theorem streamsMoveOnlyThroughTheirPorts : Obligations.StreamsMoveOnlyThroughTheirPorts := by
  intro s t hst
  have hsink := (step_next_cases hst).sink
  have hsource := (step_next_cases hst).source
  refine ⟨fun hno => ?_, fun hv hx => ?_, fun hq => ?_, hsource.imp_right And.right⟩
  · refine hsink.resolve_right fun ⟨hv, hr, hk, _⟩ => ?_
    simp [hv, hr, hk] at hno
  · rw [← seen_snk_of_busy (busy_of_snkValid hv)]
    exact hsink.imp_right fun ⟨_, _, _, hput⟩ => hput.resolve_left (by simp [hx])
  · exact hsource.resolve_right fun ⟨hq', _⟩ => by simp [hq] at hq'

/-! ### The encoding group by group, and its decoding -/

theorem enc_of_le {u : Word} (h : u.toNat ≤ 127) : enc u = [groupByte false u] := encLoop_small 9 u h

/-- R95 without its bound: nine turns are enough for what the first one leaves. -/
theorem enc_of_gt {u : Word} (h : 127 < u.toNat) : enc u = groupByte true u :: enc (u >>> 7) := by
  have hrest : encLoop 9 (u >>> 7) = encLoop 8 (u >>> 7) :=
    encLoop_stable 8 9 _ ((shr7_lt_iff u 9).2 (u.isLt.trans (by norm_num))) (by omega)
  rw [enc, enc, hrest, encLoop, if_pos ((moreGroups_iff u).2 h)]

/-- Induction along the encode loop: a value of one group, or a longer value after the value without its lowest group. -/
theorem word_group_induction {P : Word → Prop} (one : ∀ u : Word, u.toNat ≤ 127 → P u)
    (more : ∀ u : Word, 127 < u.toNat → P (u >>> 7) → P u) (u : Word) : P u := by
  obtain hu | hu := Nat.lt_or_ge 127 u.toNat
  · have hlt : (u >>> 7).toNat < u.toNat := by
      rw [shr7_toNat]
      omega
    exact more u hu (word_group_induction one more (u >>> 7))
  · exact one u hu
termination_by u.toNat

theorem contBit_groupByte (c : Bool) (u : Word) : contBit (groupByte c u) = c := by
  cases c with
  | true => rw [contBit_iff, groupByte_true_toNat]; omega
  | false => rw [contBit_false_iff, groupByte_false_toNat]; omega

theorem payload_groupByte_toNat (c : Bool) (u : Word) : (payload (groupByte c u)).toNat = u.toNat % 128 := by
  cases c with
  | true => rw [payload_toNat, groupByte_true_toNat]; omega
  | false => rw [payload_toNat, groupByte_false_toNat]; omega

theorem payload_groupByte_of_le {u : Word} (h : u.toNat ≤ 127) (c : Bool) : payload (groupByte c u) = u := by
  apply BitVec.eq_of_toNat_eq
  rw [payload_groupByte_toNat]
  omega

/-- A value is its lowest group and the groups above it. -/
theorem payload_add_shr7_mul (c : Bool) (u : Word) : payload (groupByte c u) + (u >>> 7) * 128 = u := by
  apply BitVec.eq_of_toNat_eq
  have hu := u.isLt
  have h128 : (128 : Word).toNat = 128 := rfl
  rw [BitVec.toNat_add, BitVec.toNat_mul, payload_groupByte_toNat, shr7_toNat, h128]
  omega

theorem shl7_eq_mul (r : Word) : r <<< 7 = r * 128 :=
  BitVec.shiftLeft_eq_mul_twoPow r 7

/-- From any accumulator and multiplier the decode loop adds the encoded value, scaled, and takes exactly its bytes. -/
theorem decLoop_enc_append (u : Word) (T : List Byte) (acc fac : Word) (k : Nat) :
    decLoop acc fac k (enc u ++ T) = .ok (acc + fac * u) (k + length u) := by
  induction u using word_group_induction generalizing acc fac k with
  | one u hu => simp [enc_of_le hu, decLoop, contBit_groupByte, payload_groupByte_of_le hu, length_of_le_127 hu]
  | more u hu ih =>
    have hval : acc + fac * payload (groupByte true u) + fac <<< 7 * (u >>> 7) = acc + fac * u := by
      rw [shl7_eq_mul]
      linear_combination fac * payload_add_shr7_mul true u
    have hcount : k + 1 + length (u >>> 7) = k + length u := by
      rw [length_eq_length_shr7_add_one hu]
      omega
    simp only [enc_of_gt hu, List.cons_append, decLoop, contBit_groupByte, if_true, ih, hval, hcount]

/-- Decoding what was encoded gives the value back, whatever follows (R145). -/
theorem dec_enc_append (u : Word) (T : List Byte) : dec (enc u ++ T) = .ok u (length u) := by
  simp [dec, decLoop_enc_append]

/-! ### Edges that end at the last of `n` turns -/

/-- Of these edges `n ≥ 1` are turns, edges with `p`, and the last edge is one of them. -/
inductive Turns (p : EdgeIn → Bool) : Nat → List EdgeIn → Prop
  | last {e : EdgeIn} (he : p e = true) : Turns p 1 [e]
  | turn {e : EdgeIn} {n : Nat} {es : List EdgeIn} (he : p e = true) (h : Turns p n es) : Turns p (n + 1) (e :: es)
  | wait {e : EdgeIn} {n : Nat} {es : List EdgeIn} (he : p e = false) (h : Turns p n es) : Turns p n (e :: es)

theorem Turns.pos {p : EdgeIn → Bool} {n : Nat} {es : List EdgeIn} (h : Turns p n es) : 1 ≤ n := by
  induction h with
  | last | turn => omega
  | wait _ _ ih => exact ih

theorem turns_of_countP {p : EdgeIn → Bool} {es : List EdgeIn} (h : es.getLast?.any p = true) :
    Turns p (es.countP p) es := by
  induction es with
  | nil => cases h
  | cons e es ih =>
    cases es with
    | nil =>
      have he : p e = true := by simpa using h
      simpa [he] using Turns.last he
    | cons e' es' =>
      have hrest := ih (by simpa [List.getLast?_cons_cons] using h)
      cases he : p e with
      | true => simpa only [List.countP_cons_of_pos he] using hrest.turn he
      | false => simpa only [List.countP_cons_of_neg (Bool.eq_false_iff.1 he)] using hrest.wait he

@[simp] theorem arrivals_nil : arrivals [] = [] := rfl

@[simp] theorem arrivals_cons (e : EdgeIn) (es : List EdgeIn) : arrivals (e :: es) = e.srcArrive ++ arrivals es := rfl

@[simp] theorem arrivals_append (es fs : List EdgeIn) : arrivals (es ++ fs) = arrivals es ++ arrivals fs :=
  List.flatMap_append

/-! ### The run of an encode -/

section
variable {s : State} {e : EdgeIn} {es : List EdgeIn}

/-- What a busy core sees at its next edge, with the coming edges written out. -/
theorem State.seen_of_busy_cons (hb : s.busy = true) (hin : s.inputs = e :: es) :
    s.seen = { s with inputs := es, src := s.src ++ e.srcArrive } := by
  rw [State.seen_of_busy s hb, State.nextIn_cons s e es hin, hin, List.tail_cons]

theorem sinkWorks_iff (e : EdgeIn) :
    e.sinkWorks = true ↔ e.rst = false ∧ (e.snkReady = true → e.snkErr = false) := by
  cases hk : e.snkReady <;> simp [EdgeIn.sinkWorks, hk]

/-- The next edge of a running encode at which the sink stalls (R75). -/
theorem step_encoder_wait (hb : s.busy = true) (ho : isEncoderOp s.op = true) (hin : s.inputs = e :: es)
    (hw : e.sinkWorks = true) (hk : e.snkReady = false) :
    step s = .next { s with inputs := es, src := s.src ++ e.srcArrive } := by
  obtain ⟨hr, -⟩ := (sinkWorks_iff e).1 hw
  rw [← State.seen_of_busy_cons hb hin]
  rw [← State.nextIn_cons s e es hin] at hr hk
  exact (StepCase.stall hr hb (.inl ⟨ho, hk⟩)).step_eq

/-- The next edge of a running encode at which the sink acknowledges a byte that is not the last (R98). -/
theorem step_encoder_more (hb : s.busy = true) (ho : isEncoderOp s.op = true) (hin : s.inputs = e :: es)
    (hw : e.sinkWorks = true) (hk : e.snkReady = true) (hm : 127 < s.rem.toNat) :
    step s = .next { s with
      inputs := es, src := s.src ++ e.srcArrive, snk := s.snk ++ [groupByte true s.rem]
      cnt := s.cnt + 1, rem := s.rem >>> 7 } := by
  obtain ⟨hr, hx⟩ := (sinkWorks_iff e).1 hw
  have hx := hx hk
  rw [← State.nextIn_cons s e es hin] at hr hk hx
  rw [(StepCase.encMore hr hb ho hk hx hm).step_eq, State.seen_of_busy_cons hb hin, State.snkData,
    (moreGroups_iff s.rem).2 hm]

/-- The next edge of a running encode at which the sink acknowledges the last byte (R99). -/
theorem step_encoder_last (hb : s.busy = true) (ho : isEncoderOp s.op = true) (hin : s.inputs = e :: es)
    (hw : e.sinkWorks = true) (hk : e.snkReady = true) (hm : s.rem.toNat ≤ 127) :
    step s = .next (({ s with
      inputs := es, src := s.src ++ e.srcArrive, snk := s.snk ++ [groupByte false s.rem]
      cnt := s.cnt + 1 } : State).complete ((s.cnt + 1).setWidth 64)) := by
  obtain ⟨hr, hx⟩ := (sinkWorks_iff e).1 hw
  have hx := hx hk
  have hlast : moreGroups s.rem = false := by simpa [isLast] using (isLast_iff s.rem).2 hm
  rw [← State.nextIn_cons s e es hin] at hr hk hx
  rw [(StepCase.encLast hr hb ho hk hx hm).step_eq, State.seen_of_busy_cons hb hin, State.snkData, hlast]

end

/-- A running encode whose sink acknowledges once per byte still to come, the last time at the last edge: it puts the
encoding of `REM` and completes with `CNT` that many further. -/
theorem run_encoder {n : Nat} {es : List EdgeIn} (hturns : Turns (·.snkReady) n es) {s : State} {rest : List EdgeIn}
    (hb : s.busy = true) (ho : isEncoderOp s.op = true) (hin : s.inputs = es ++ rest)
    (hw : ∀ e ∈ es, e.sinkWorks = true) (hn : n = length s.rem) :
    ∃ r, run es.length s = .next (({ s with
      inputs := rest, src := s.src ++ arrivals es, snk := s.snk ++ enc s.rem, rem := r
      cnt := s.cnt + BitVec.ofNat 4 n } : State).complete ((s.cnt + BitVec.ofNat 4 n).setWidth 64)) := by
  induction hturns generalizing s with
  | @last e he =>
    obtain ⟨hwe, -⟩ := List.forall_mem_cons.1 hw
    have hm : s.rem.toNat ≤ 127 := Nat.le_of_lt_succ ((length_le_iff s.rem le_rfl).1 hn.ge)
    refine ⟨s.rem, ?_⟩
    rw [List.length_singleton, run_succ (step_encoder_last hb ho hin hwe he hm), enc_of_le hm]
    simp
  | @turn e n es he h ih =>
    obtain ⟨hwe, hwes⟩ := List.forall_mem_cons.1 hw
    have hm : 127 < s.rem.toNat := by
      by_contra hle
      have hpos := h.pos
      have hone := length_of_le_127 (Nat.le_of_not_lt hle)
      omega
    have hlen := length_eq_length_shr7_add_one hm
    rw [List.length_cons, run_succ (step_encoder_more hb ho hin hwe he hm), enc_of_gt hm]
    obtain ⟨r, hrun⟩ := ih (s := { s with
      inputs := es ++ rest, src := s.src ++ e.srcArrive, snk := s.snk ++ [groupByte true s.rem]
      cnt := s.cnt + 1, rem := s.rem >>> 7 }) hb ho rfl hwes (by simp only; omega)
    have hcnt : s.cnt + 1 + BitVec.ofNat 4 n = s.cnt + BitVec.ofNat 4 (n + 1) := by
      rw [Nat.add_comm, BitVec.ofNat_add, ← add_assoc]
      rfl
    refine ⟨r, hrun.trans ?_⟩
    simp only [hcnt, arrivals_cons, List.append_assoc, List.singleton_append]
  | @wait e n es he h ih =>
    obtain ⟨hwe, hwes⟩ := List.forall_mem_cons.1 hw
    rw [List.length_cons, run_succ (step_encoder_wait hb ho hin hwe he)]
    obtain ⟨r, hrun⟩ := ih (s := { s with inputs := es ++ rest, src := s.src ++ e.srcArrive }) hb ho rfl hwes hn
    exact ⟨r, hrun.trans (by simp only [arrivals_cons, List.append_assoc])⟩

/-- An accepted encode (R73). -/
theorem step_accept_encode {s : State} {i : Instr} {u : Word} {a : EdgeIn} {es : List EdgeIn} (hb : s.busy = false)
    (hin : s.inputs = a :: es) (ha : a.accepts i) (hi : i = .enc u ∨ ∃ w, i = .senc w ∧ u = unsign w) :
    step s = .next ((s.seen.accept i.opcode).startEncode u) := by
  rw [← State.nextIn_cons s a es hin] at ha
  obtain ⟨hr, hv, rfl⟩ := ha
  exact (StepCase.encode hr hb hv u hi).step_eq

/-- An encode command of an idle core, from its acceptance to its completion: it puts `enc u` and reports `length u`. -/
theorem run_encode_command {s : State} {i : Instr} {u : Word} {a : EdgeIn} {es rest : List EdgeIn} (hb : s.busy = false)
    (hin : s.inputs = a :: es ++ rest) (ha : a.accepts i) (hi : i = .enc u ∨ ∃ w, i = .senc w ∧ u = unsign w)
    (hw : ∀ e ∈ es, e.sinkWorks = true) (hcount : es.countP (·.snkReady) = length u)
    (hlast : es.getLast?.any (·.snkReady) = true) :
    ∃ r, run (es.length + 1) s = .next (({ s.seen with
      inputs := rest, op := i.opcode, pc := s.pc + 1, src := s.seen.src ++ arrivals es, snk := s.seen.snk ++ enc u
      rem := r, cnt := BitVec.ofNat 4 (length u) } : State).complete (BitVec.ofNat 64 (length u))) := by
  have hturns := turns_of_countP hlast
  rw [hcount] at hturns
  have hinputs : s.seen.inputs = es ++ rest := by simp [hin]
  obtain ⟨r, hrun⟩ := run_encoder (s := (s.seen.accept i.opcode).startEncode u) hturns rfl (isEncoderOp_of_encode hi)
    hinputs hw rfl
  have hres : (BitVec.ofNat 4 (length u)).setWidth 64 = BitVec.ofNat 64 (length u) := by
    apply BitVec.eq_of_toNat_eq
    have hten := length_le_ten u
    simp only [BitVec.toNat_setWidth, BitVec.toNat_ofNat]
    omega
  refine ⟨r, ?_⟩
  rw [run_succ (step_accept_encode hb hin ha hi), hrun]
  simp only [State.startEncode_cnt, zero_add, hres]
  rfl

/-! ### The run of a decode -/

section
variable {s : State} {e : EdgeIn} {es : List EdgeIn}

theorem sourceWorks_iff (e : EdgeIn) :
    e.sourceWorks = true ↔ e.rst = false ∧ (e.srcDrive = .stall ∨ e.srcDrive = .serve) := by
  simp [EdgeIn.sourceWorks]

/-- The next edge of a running decode at which the source stalls (R75). -/
theorem step_decoder_wait (hb : s.busy = true) (ho : isDecoderOp s.op = true) (hin : s.inputs = e :: es)
    (hw : e.sourceWorks = true) (hd : (e.srcDrive == .serve) = false) :
    step s = .next { s with inputs := es, src := s.src ++ e.srcArrive } := by
  obtain ⟨hr, hd'⟩ := (sourceWorks_iff e).1 hw
  have hstall := hd'.resolve_right (by simpa using hd)
  rw [← State.seen_of_busy_cons hb hin]
  rw [← State.nextIn_cons s e es hin] at hr hstall
  exact (StepCase.stall hr hb (.inr ⟨ho, hstall⟩)).step_eq

/-- The next edge of a running decode at which the source serves a byte with bit 7 set (R112, R113). -/
theorem step_decoder_more (hb : s.busy = true) (ho : isDecoderOp s.op = true) (hin : s.inputs = e :: es)
    (hw : e.sourceWorks = true) (hd : (e.srcDrive == .serve) = true) {b : Byte} {bs : List Byte}
    (hs : s.src ++ e.srcArrive = b :: bs) (hc : contBit b = true) :
    step s = .next (({ s with inputs := es, src := bs, srcCur := s.srcCur + 1 } : State).accumulate b) := by
  obtain ⟨hr, -⟩ := (sourceWorks_iff e).1 hw
  have hserve : e.srcDrive = .serve := by simpa using hd
  have hsrc : s.seen.src = b :: bs := by rw [State.seen_of_busy_cons hb hin, ← hs]
  rw [← State.nextIn_cons s e es hin] at hr hserve
  rw [(StepCase.decMore hr hb ho b bs hserve hsrc hc).step_eq, State.seen_of_busy_cons hb hin]

/-- The next edge of a running decode at which the source serves a byte with bit 7 clear (R112, R113). -/
theorem step_decoder_last (hb : s.busy = true) (ho : isDecoderOp s.op = true) (hin : s.inputs = e :: es)
    (hw : e.sourceWorks = true) (hd : (e.srcDrive == .serve) = true) {b : Byte} {bs : List Byte}
    (hs : s.src ++ e.srcArrive = b :: bs) (hc : contBit b = false) :
    step s = .next ((({ s with inputs := es, src := bs, srcCur := s.srcCur + 1 } : State).accumulate b).complete
      (decoderResult s.op (s.acc + s.fac * payload b))) := by
  obtain ⟨hr, -⟩ := (sourceWorks_iff e).1 hw
  have hserve : e.srcDrive = .serve := by simpa using hd
  have hsrc : s.seen.src = b :: bs := by rw [State.seen_of_busy_cons hb hin, ← hs]
  rw [← State.nextIn_cons s e es hin] at hr hserve
  rw [(StepCase.decLast hr hb ho b bs hserve hsrc hc).step_eq, State.seen_of_busy_cons hb hin]

end

/-- A source that holds `held` and receives what arrives is at no edge served when it holds nothing. -/
def ServedInTime (held : List Byte) (es : List EdgeIn) : Prop :=
  ∀ n, (es.take n).countP (·.srcDrive == .serve) ≤ (held ++ arrivals (es.take n)).length

theorem ServedInTime.of_countP_le {held : List Byte} {es : List EdgeIn}
    (h : es.countP (·.srcDrive == .serve) ≤ held.length) : ServedInTime held es := fun n => by
  rw [List.length_append]
  exact ((List.take_sublist n es).countP_le.trans h).trans (Nat.le_add_right _ _)

theorem ServedInTime.wait {held : List Byte} {e : EdgeIn} {es : List EdgeIn} (h : ServedInTime held (e :: es))
    (he : (e.srcDrive == .serve) = false) : ServedInTime (held ++ e.srcArrive) es := fun n => by
  have hn := h (n + 1)
  rw [List.take_succ_cons, List.countP_cons_of_neg (by simp [he])] at hn
  simpa [List.append_assoc] using hn

theorem ServedInTime.turn {held : List Byte} {e : EdgeIn} {es : List EdgeIn} (h : ServedInTime held (e :: es))
    (he : (e.srcDrive == .serve) = true) : ∃ b bs, held ++ e.srcArrive = b :: bs ∧ ServedInTime bs es := by
  have hn : ∀ n, (es.take n).countP (·.srcDrive == .serve) + 1 ≤
      (held ++ e.srcArrive).length + (arrivals (es.take n)).length := fun n => by
    have hn := h (n + 1)
    rw [List.take_succ_cons, List.countP_cons_of_pos (p := fun e : EdgeIn => e.srcDrive == .serve) he] at hn
    simpa [Nat.add_assoc] using hn
  cases hheld : held ++ e.srcArrive with
  | nil => simpa [hheld] using hn 0
  | cons b bs =>
    refine ⟨b, bs, rfl, fun n => ?_⟩
    have hn := hn n
    rw [hheld, List.length_cons] at hn
    rw [List.length_append]
    omega

theorem decLoop_consumes {acc fac : Word} {k m : Nat} {S : List Byte} {v : Word} (h : decLoop acc fac k S = .ok v m) :
    k + 1 ≤ m := by
  induction S generalizing acc fac k with
  | nil => cases h
  | cons b S ih =>
    cases hc : contBit b with
    | true =>
      have hrest := ih (by simpa [decLoop, hc] using h)
      omega
    | false =>
      obtain ⟨-, rfl⟩ : _ = v ∧ k + 1 = m := by simpa [decLoop, hc] using h
      exact le_rfl

/-- A running decode served once per byte of the value, the last time at the last edge and never too early: it takes those
bytes and completes with the value. -/
theorem run_decoder {n : Nat} {es : List EdgeIn} (hturns : Turns (·.srcDrive == .serve) n es) {s : State}
    {rest : List EdgeIn} {k : Nat} {v : Word} (hb : s.busy = true) (ho : isDecoderOp s.op = true)
    (hin : s.inputs = es ++ rest) (hw : ∀ e ∈ es, e.sourceWorks = true) (hserved : ServedInTime s.src es)
    (hdec : decLoop s.acc s.fac k (s.src ++ arrivals es) = .ok v (k + n)) :
    ∃ f, run es.length s = .next (({ s with
      inputs := rest, src := (s.src ++ arrivals es).drop n, srcCur := s.srcCur + n, acc := v, fac := f } : State).complete
        (decoderResult s.op v)) := by
  induction hturns generalizing s k with
  | @last e he =>
    obtain ⟨hwe, -⟩ := List.forall_mem_cons.1 hw
    obtain ⟨b, bs, hs, -⟩ := hserved.turn he
    simp only [arrivals_cons, arrivals_nil, List.append_nil, hs, decLoop] at hdec ⊢
    cases hc : contBit b with
    | true =>
      have hmore := decLoop_consumes (by simpa [hc] using hdec)
      omega
    | false =>
      obtain rfl : s.acc + s.fac * payload b = v := by simpa [hc] using hdec
      refine ⟨s.fac <<< 7, ?_⟩
      rw [List.length_singleton, run_succ (step_decoder_last hb ho hin hwe he hs hc)]
      rfl
  | @turn e n es he h ih =>
    obtain ⟨hwe, hwes⟩ := List.forall_mem_cons.1 hw
    obtain ⟨b, bs, hs, hserved⟩ := hserved.turn he
    simp only [arrivals_cons, ← List.append_assoc, hs, List.cons_append, decLoop] at hdec ⊢
    cases hc : contBit b with
    | false =>
      have hpos := h.pos
      obtain ⟨-, hn⟩ : _ = v ∧ n = 0 := by simpa [hc] using hdec
      omega
    | true =>
      rw [List.length_cons, run_succ (step_decoder_more hb ho hin hwe he hs hc)]
      have hdec' : decLoop (s.acc + s.fac * payload b) (s.fac <<< 7) (k + 1) (bs ++ arrivals es) =
          .ok v (k + 1 + n) := by
        rw [Nat.add_assoc, Nat.add_comm 1]
        simpa [hc] using hdec
      obtain ⟨f, hrun⟩ := ih (s := ({ s with inputs := es ++ rest, src := bs, srcCur := s.srcCur + 1 } :
        State).accumulate b) hb ho rfl hwes hserved hdec'
      refine ⟨f, hrun.trans ?_⟩
      have hcur : s.srcCur + 1 + n = s.srcCur + (n + 1) := by omega
      simp only [State.accumulate_srcCur, hcur, List.drop_succ_cons]
      rfl
  | @wait e n es he h ih =>
    obtain ⟨hwe, hwes⟩ := List.forall_mem_cons.1 hw
    rw [List.length_cons, run_succ (step_decoder_wait hb ho hin hwe he)]
    simp only [arrivals_cons, ← List.append_assoc] at hdec ⊢
    exact ih (s := { s with inputs := es ++ rest, src := s.src ++ e.srcArrive }) hb ho rfl hwes (hserved.wait he) hdec

/-- An accepted decode (R73). -/
theorem step_accept_decode {s : State} {i : Instr} {a : EdgeIn} {es : List EdgeIn} (hb : s.busy = false)
    (hin : s.inputs = a :: es) (ha : a.accepts i) (hi : i = .dec ∨ i = .sdec) :
    step s = .next (s.seen.accept i.opcode).startDecode := by
  rw [← State.nextIn_cons s a es hin] at ha
  obtain ⟨hr, hv, rfl⟩ := ha
  exact (StepCase.decode hr hb hv hi).step_eq

/-- A decode command of an idle core, from its acceptance to its completion: it takes the `n` bytes of the value the source
holds or receives, and reports the value. -/
theorem run_decode_command {s : State} {i : Instr} {v : Word} {n : Nat} {a : EdgeIn} {es rest : List EdgeIn}
    (hb : s.busy = false) (hin : s.inputs = a :: es ++ rest) (ha : a.accepts i) (hi : i = .dec ∨ i = .sdec)
    (hdec : dec (s.seen.src ++ arrivals es) = .ok v n) (hserved : ServedInTime s.seen.src es)
    (hw : ∀ e ∈ es, e.sourceWorks = true) (hcount : es.countP (·.srcDrive == .serve) = n)
    (hlast : es.getLast?.any (·.srcDrive == .serve) = true) :
    ∃ f, run (es.length + 1) s = .next (({ s.seen with
      inputs := rest, op := i.opcode, pc := s.pc + 1, src := (s.seen.src ++ arrivals es).drop n, srcCur := s.srcCur + n
      acc := v, fac := f } : State).complete (decoderResult i.opcode v)) := by
  have hturns := turns_of_countP hlast
  rw [hcount] at hturns
  have hinputs : s.seen.inputs = es ++ rest := by simp [hin]
  obtain ⟨f, hrun⟩ := run_decoder (s := (s.seen.accept i.opcode).startDecode) (k := 0) hturns rfl
    (isDecoderOp_of_decode hi) hinputs hw hserved (by rwa [Nat.zero_add])
  exact ⟨f, (run_succ (step_accept_decode hb hin ha hi) _).trans hrun⟩

/-! ### The loop-back -/

/-- The outcome's value by the command: the decoded value, or its signed reading (R113). -/
theorem decoderResult_of_decode {j : Instr} {u r : Word} (h : j = .dec ∧ r = u ∨ j = .sdec ∧ r = sign u) :
    (j = .dec ∨ j = .sdec) ∧ decoderResult j.opcode u = r := by
  obtain ⟨rfl, rfl⟩ | ⟨rfl, rfl⟩ := h
  · exact ⟨.inl rfl, rfl⟩
  · exact ⟨.inr rfl, rfl⟩

/-- What an idle core sees at its next edge when the host leaves the source alone. -/
theorem seen_src_of_idle {s : State} (hb : s.busy = false) (hh : s.nextIn.hostSrc = none) :
    s.seen.src = s.src ++ s.nextIn.srcArrive := by
  rw [State.seen, State.present_src, hb, hh]
  rfl

theorem seen_snk_of_idle {s : State} (hb : s.busy = false) : s.seen.snk = s.nextIn.hostSnk.getD s.snk := by
  rw [State.seen, State.present_snk, hb]
  rfl

/-- A decode of a source that at its acceptance holds an encoding and a tail gives the value back and leaves
the tail (R43, R145). -/
theorem run_decode_of_encoding {s : State} {j : Instr} {u r : Word} {T : List Byte} {d : EdgeIn} {fs rest : List EdgeIn}
    (hb : s.busy = false) (hin : s.inputs = d :: fs ++ rest) (hd : d.accepts j)
    (hj : j = .dec ∧ r = u ∨ j = .sdec ∧ r = sign u) (hheld : s.seen.src = enc u ++ T)
    (hw : ∀ e ∈ fs, e.sourceWorks = true) (hcount : fs.countP (·.srcDrive == .serve) = length u)
    (hlast : fs.getLast?.any (·.srcDrive == .serve) = true) :
    ∃ f, run (fs.length + 1) s = .next (({ s.seen with
      inputs := rest, op := j.opcode, pc := s.pc + 1, src := T ++ arrivals fs, srcCur := s.srcCur + length u
      acc := u, fac := f } : State).complete r) := by
  obtain ⟨hj', rfl⟩ := decoderResult_of_decode hj
  have hdec : dec (s.seen.src ++ arrivals fs) = .ok u (length u) := by
    rw [hheld, List.append_assoc, dec_enc_append]
  have hserved : ServedInTime s.seen.src fs := .of_countP_le <| by
    rw [hcount, hheld, List.length_append, enc_length]
    exact Nat.le_add_right _ _
  have hleft : (s.seen.src ++ arrivals fs).drop (length u) = T ++ arrivals fs := by
    rw [hheld, List.append_assoc, ← enc_length, List.drop_left]
  rw [← hleft]
  exact run_decode_command hb hin hd hj' hdec hserved hw hcount hlast

/-- Settles O52: the encode's run ends in an idle core, at whose next edge the source holds the encoding and the tail, and
decoding an encoding gives its value back. -/
theorem loopBackReturnsTheValue : Obligations.LoopBackReturnsTheValue := by
  intro s i j u r T a d es fs rest hb hin ha hi hwe hce hle hsrc hhost harr hd hj hwf hcf hlf
  have hsplit : s.inputs = a :: es ++ (d :: fs ++ rest) := by rw [hin, List.append_assoc]
  obtain ⟨rem, hrun⟩ := run_encode_command hb hsplit ha hi hwe hce hle
  generalize hm : State.complete _ _ = m at hrun
  have hidle : m.busy = false := by rw [← hm]; rfl
  have hinputs : m.inputs = d :: fs ++ rest := by rw [← hm]; rfl
  have hnext : m.nextIn = d := State.nextIn_cons m d _ hinputs
  have hheld : m.seen.src = enc u ++ T := by
    rw [seen_src_of_idle hidle (hnext ▸ hhost), hnext, ← harr]
    simp [← hm, hsrc]
  obtain ⟨f, hrun'⟩ := run_decode_of_encoding hidle hinputs hd hj hheld hwf hcf hlf
  refine ⟨_, (run_add hrun _).trans hrun', rfl, rfl, ?_, ?_, rfl, ?_, ?_⟩
  · simp [← hm]
  · rw [State.complete_snk, seen_snk_of_idle hidle, hnext, ← hm, State.complete_snk]
  · simp [← hm]
  · simp [← hm, stOk]

end Sys2Proof.Machine
end

section
/-! The encoding family (30_encoding.md): the command word and the opcode map, the assembled word, and the bytes of an
encoding with the sequences R61 calls canonical. -/

namespace Sys2Proof.Machine

/-! ### The command word and the opcode map (R50 to R55) -/

/-- `decode` reads the two fields and nothing else. -/
theorem decode_mkCmd (o : Opcode) (a : Word) : decode (mkCmd o a) = decodeFields o a := by
  rw [decode, cmdOp_mkCmd, cmdArg_mkCmd]

theorem decodeFields_opcode_arg (i : Instr) : decodeFields i.opcode i.arg = i := by
  cases i <;> rfl

theorem opcode_decodeFields (o : Opcode) (a : Word) : (decodeFields o a).opcode = o := by
  obtain rfl | rfl | rfl | rfl | rfl | rfl | rfl | rfl := opcode_cases o <;> rfl

/-- The argument survives decoding but for the two commands that ignore it (R54; log 10). -/
theorem arg_decodeFields (o : Opcode) (a : Word) : (decodeFields o a).arg = if isDecoderOp o then 0 else a := by
  obtain rfl | rfl | rfl | rfl | rfl | rfl | rfl | rfl := opcode_cases o <;> rfl

/-- An idle core takes every command: its opcode goes to `OP` and the host's index advances (R55, R71). -/
theorem exec_records_opcode (i : Instr) {s : State} (hb : s.busy = false) :
    ∃ t, exec i s = .next t ∧ t.op = i.opcode ∧ t.pc = s.pc + 1 := by
  obtain ⟨v, hi⟩ | ⟨v, hi⟩ | hi := instr_shapes i
  · exact ⟨_, exec_pure i v s hi hb, rfl, rfl⟩
  · exact ⟨_, exec_encode i v s hi hb, rfl, rfl⟩
  · exact ⟨_, exec_decode i s hi hb, rfl, rfl⟩

/-- Settles O1: the word keeps both fields, and the opcode map is read back constructor by constructor. -/
theorem decodeOfEncodeIsTheCommand : Obligations.DecodeOfEncodeIsTheCommand := by
  intro i _
  rw [encode, decode_mkCmd, decodeFields_opcode_arg]

/-- Settles O2. -/
theorem everyWordSelectsItsCommand : Obligations.EveryWordSelectsItsCommand := by
  refine ⟨fun a => ?_, fun w s hb => ?_, fun w => ?_⟩
  · simp only [decode_mkCmd]
    exact ⟨rfl, rfl, rfl, rfl, rfl, rfl, rfl, rfl⟩
  · have hop : (decode w).opcode = cmdOp w := opcode_decodeFields _ _
    rw [← hop]
    exact exec_records_opcode (decode w) hb
  · rw [decode, encode, opcode_decodeFields, arg_decodeFields]
    split
    · rfl
    · exact mkCmd_fields w

/-! ### The assembled word (R65, R66; log 15) -/

theorem assemble_of_wf {l : AsmLine} (h : l.wf = true) : l.assemble = some (encode l.instr) := if_pos h

theorem assemble_of_not_wf {l : AsmLine} (h : ¬ l.wf = true) : l.assemble = none := if_neg h

/-- The three mnemonics with an unsigned operand, in range. -/
theorem assemble_unsigned {o : UOperand} (h : o.wf = true) :
    (AsmLine.len o).assemble = some (mkCmd 0 o.word) ∧ (AsmLine.enc o).assemble = some (mkCmd 1 o.word) ∧
      (AsmLine.zzd o).assemble = some (mkCmd 7 o.word) :=
  ⟨assemble_of_wf h, assemble_of_wf h, assemble_of_wf h⟩

/-- The three mnemonics with a signed operand, in range. -/
theorem assemble_signed {o : SOperand} (h : o.wf = true) :
    (AsmLine.zze o).assemble = some (mkCmd 3 o.word) ∧ (AsmLine.slen o).assemble = some (mkCmd 4 o.word) ∧
      (AsmLine.senc o).assemble = some (mkCmd 5 o.word) :=
  ⟨assemble_of_wf h, assemble_of_wf h, assemble_of_wf h⟩

/-- A signed operand outside its range, as a number or as a pattern, is not well-formed. -/
theorem signedOperand_not_wf {o : SOperand} (h : (∃ z : Int, o = .dec z ∧ (z < -(2 ^ 63) ∨ 2 ^ 63 ≤ z)) ∨
    ∃ n : Nat, o = .hex n ∧ 2 ^ 64 ≤ n) : ¬ o.wf = true := by
  obtain ⟨z, rfl, hz⟩ | ⟨n, rfl, hn⟩ := h
  · rw [SOperand.wf_dec_iff]
    omega
  · rw [SOperand.wf_hex_iff]
    omega

/-- Settles O4: an operand is in range exactly when its value is, and the word of a line in range holds that value. -/
theorem assembledWordCarriesTheOperand : Obligations.AssembledWordCarriesTheOperand := by
  refine ⟨fun o h => ?_, fun z hlo hhi => ?_, fun n hn => ?_, rfl, rfl, fun n => ⟨rfl, rfl, rfl, rfl⟩, fun o h => ?_,
    fun o h => ?_⟩
  · exact ⟨o.word, o.word_toNat h, assemble_unsigned (o.wf_iff_value.2 h)⟩
  · exact ⟨twos z, signed_twos hlo hhi, assemble_signed ((SOperand.wf_dec_iff z).2 ⟨hlo, hhi⟩)⟩
  · exact ⟨BitVec.ofNat 64 n, Nat.mod_eq_of_lt hn, assemble_signed ((SOperand.wf_hex_iff n).2 hn)⟩
  · have hwf : ¬ o.wf = true := by
      rw [o.wf_iff_value]
      omega
    exact ⟨assemble_of_not_wf hwf, assemble_of_not_wf hwf, assemble_of_not_wf hwf⟩
  · have hwf := signedOperand_not_wf h
    exact ⟨assemble_of_not_wf hwf, assemble_of_not_wf hwf, assemble_of_not_wf hwf⟩

/-! ### The bytes of an encoding (R57, R58, R95) -/

theorem shr7_div_pow (u : Word) (i : Nat) : (u >>> 7).toNat / 2 ^ (7 * i) = u.toNat / 2 ^ (7 * (i + 1)) := by
  rw [shr7_toNat, Nat.div_div_eq_div_mul, mul_add, pow_add, mul_comm]
  rfl

/-- Byte `i` of an encoding holds the value's group `i` and the mark that more follows. -/
theorem enc_getElem? (u : Word) {i : Nat} {b : Byte} (h : (enc u)[i]? = some b) :
    (payload b).toNat = u.toNat / 2 ^ (7 * i) % 128 ∧ (contBit b = true ↔ i + 1 < length u) := by
  induction u using word_group_induction generalizing i with
  | one u hu =>
    rw [enc_of_le hu, List.getElem?_singleton, Option.ite_none_right_eq_some, Option.some.injEq] at h
    obtain ⟨rfl, rfl⟩ := h
    simp [payload_groupByte_toNat, contBit_groupByte, length_of_le_127 hu]
  | more u hu ih =>
    have hlen := length_eq_length_shr7_add_one hu
    rw [enc_of_gt hu] at h
    cases i with
    | zero =>
      obtain rfl : groupByte true u = b := by simpa using h
      have hpos := length_pos (u >>> 7)
      refine ⟨by simp [payload_groupByte_toNat], ?_⟩
      simp only [contBit_groupByte, true_iff]
      omega
    | succ i =>
      obtain ⟨hgroup, hmark⟩ := ih h
      rw [hgroup, shr7_div_pow, hmark]
      exact ⟨rfl, by omega⟩

/-- Settles O29: the loop by its two equations, the bytes by induction along it. -/
theorem encodeLoopAndWireFormat : Obligations.EncodeLoopAndWireFormat := by
  intro u
  rw [enc_length]
  refine ⟨fun hu => ?_, fun hu => ?_, rfl, length_pos u, length_le_ten u, fun i b hb => ?_⟩
  · exact ⟨groupByte true u, groupByte_true_toNat u, enc_of_gt hu⟩
  · refine ⟨groupByte false u, ?_, enc_of_le hu⟩
    rw [groupByte_false_toNat]
    omega
  · rw [← payload_toNat, ← contBit_iff]
    exact enc_getElem? u hb

/-! ### The canonical sequences (R61) -/

theorem length_pos_of_terminated {L : List Byte} (h : terminated L = true) : 0 < L.length := by
  cases L with
  | nil => cases h
  | cons b L => exact Nat.succ_pos _

theorem terminated_cons {b : Byte} {L : List Byte} (hb : contBit b = true) (h : terminated L = true) :
    terminated (b :: L) = true := by
  cases L with
  | nil => cases h
  | cons c L => simp [terminated, hb, h]

/-- Induction along a terminated sequence: its last byte alone, or a byte marked with bit 7 before a terminated rest. -/
theorem terminated_induction {P : ∀ L : List Byte, terminated L = true → Prop}
    (last : ∀ b (h : terminated [b] = true), contBit b = false → P [b] h)
    (more : ∀ b L (hb : contBit b = true) (h : terminated L = true), P L h → P (b :: L) (terminated_cons hb h))
    (L : List Byte) (h : terminated L = true) : P L h := by
  induction L with
  | nil => cases h
  | cons b L ih =>
    cases L with
    | nil => exact last b h (by simpa [terminated] using h)
    | cons c L =>
      obtain ⟨hb, hL⟩ : contBit b = true ∧ terminated (c :: L) = true := by simpa [terminated] using h
      exact more b (c :: L) hb hL (ih hL)

theorem getLast?_cons_of_terminated (b : Byte) {L : List Byte} (h : terminated L = true) :
    (b :: L).getLast? = L.getLast? := by
  cases L with
  | nil => cases h
  | cons c L => exact List.getLast?_cons_cons

theorem terminated_enc (u : Word) : terminated (enc u) = true := by
  induction u using word_group_induction with
  | one u hu => simp [enc_of_le hu, terminated, contBit_groupByte]
  | more u hu ih =>
    rw [enc_of_gt hu]
    exact terminated_cons (contBit_groupByte true u) ih

/-- The last byte of an encoding is the value without the groups below it. -/
theorem enc_getLast? (u : Word) :
    ∃ b, (enc u).getLast? = some b ∧ b.toNat = u.toNat / 2 ^ (7 * (length u - 1)) := by
  have hpos := length_pos u
  have hidx : length u - 1 < (enc u).length := by
    rw [enc_length]
    omega
  obtain ⟨b, hb⟩ : ∃ b, (enc u)[length u - 1]? = some b := ⟨_, List.getElem?_eq_getElem hidx⟩
  obtain ⟨hgroup, hmark⟩ := enc_getElem? u hb
  have hlow : b.toNat < 128 := by
    rw [← contBit_false_iff, Bool.eq_false_iff, Ne, hmark]
    omega
  have htop : u.toNat / 2 ^ (7 * (length u - 1)) < 128 := by
    rw [Nat.div_lt_iff_lt_mul (by positivity), show (128 : Nat) = 2 ^ 7 from rfl, ← pow_add,
      show 7 + 7 * (length u - 1) = 7 * length u by omega]
    exact toNat_lt_two_pow_length u
  refine ⟨b, by rw [List.getLast?_eq_getElem?, enc_length, hb], ?_⟩
  rw [← Nat.mod_eq_of_lt hlow, ← payload_toNat, hgroup, Nat.mod_eq_of_lt htop]

/-- An encoding of more than one byte has a bit in its last group, or it would be shorter. -/
theorem top_group_pos {u : Word} (h : 1 < length u) : 0 < u.toNat / 2 ^ (7 * (length u - 1)) := by
  have hle : ¬ length u ≤ length u - 1 := by omega
  rw [length_le_iff u (by omega), not_lt] at hle
  exact Nat.div_pos hle (by positivity)

theorem canonical_iff (L : List Byte) :
    canonical L = true ↔ terminated L = true ∧ L.length ≤ 10 ∧ (L.length = 10 → L.getLast? = some 0x01) ∧
      (1 < L.length → L.getLast? ≠ some 0x00) := by
  simp only [canonical, Bool.and_eq_true, Bool.or_eq_true, decide_eq_true_eq, bne_iff_ne, beq_iff_eq, and_assoc]
  rw [or_iff_not_imp_left (a := L.length ≤ 1), not_le, ← imp_iff_not_or]

theorem canonical_enc (u : Word) : canonical (enc u) = true := by
  obtain ⟨b, hlast, hb⟩ := enc_getLast? u
  rw [canonical_iff, enc_length, hlast]
  refine ⟨terminated_enc u, length_le_ten u, fun hten => ?_, fun hone => ?_⟩
  · have hpos := top_group_pos (u := u) (by omega)
    have hu := u.isLt
    rw [hten] at hb hpos
    have h1 : b.toNat = 1 := by omega
    exact congrArg some (BitVec.eq_of_toNat_eq h1)
  · have hpos := top_group_pos hone
    rintro ⟨⟩
    rw [← hb] at hpos
    exact absurd hpos (by decide)

/-- A byte is its mark and its payload. -/
theorem groupByte_eq {b : Byte} {u : Word} (h : u.toNat % 128 = (payload b).toNat) :
    groupByte (contBit b) u = b := by
  rw [payload_toNat] at h
  apply BitVec.eq_of_toNat_eq
  cases hc : contBit b with
  | true =>
    have hhigh := (contBit_iff b).1 hc
    have hb := b.isLt
    rw [groupByte_true_toNat]
    omega
  | false =>
    have hlow := (contBit_false_iff b).1 hc
    rw [groupByte_false_toNat]
    omega

/-- A terminated sequence whose last byte is not `00` does not have the value 0. -/
theorem payloadSum_pos {L : List Byte} (h : terminated L = true) (hlast : L.getLast? ≠ some 0x00) :
    0 < payloadSum L := by
  induction L, h using terminated_induction with
  | last b _ hb =>
    have hlow := (contBit_false_iff b).1 hb
    have hne : b.toNat ≠ 0 := fun h0 => hlast (congrArg some (BitVec.eq_of_toNat_eq h0))
    simp only [payloadSum, payload_toNat]
    omega
  | more b L hb hL ih =>
    have hrest := ih (by rwa [getLast?_cons_of_terminated b hL] at hlast)
    simp only [payloadSum]
    omega

/-- A terminated sequence without a zero top group is the encoding of its payload sum, if that is a 64-bit value. -/
theorem enc_payloadSum {L : List Byte} (h : terminated L = true) (hlast : 1 < L.length → L.getLast? ≠ some 0x00)
    {u : Word} (hu : u.toNat = payloadSum L) : enc u = L := by
  induction L, h using terminated_induction generalizing u with
  | last b _ hb =>
    have hlow := payload_le b
    simp only [payloadSum, mul_zero, add_zero] at hu
    rw [enc_of_le (by omega), ← hb, groupByte_eq (by omega)]
  | more b L hb hL ih =>
    have htop : L.getLast? ≠ some 0x00 := by
      rw [← getLast?_cons_of_terminated b hL]
      exact hlast (by simpa using length_pos_of_terminated hL)
    have hpos := payloadSum_pos hL htop
    have hlow := payload_le b
    simp only [payloadSum] at hu
    have hrest : enc (u >>> 7) = L := ih (fun _ => htop) (by rw [shr7_toNat]; omega)
    rw [enc_of_gt (by omega), hrest, ← hb, groupByte_eq (by omega)]

/-- The payload of at most ten bytes is a 64-bit value when the tenth byte is `01`. -/
theorem payloadSum_lt_two_pow_64 {L : List Byte} (hlen : L.length ≤ 10)
    (hten : L.length = 10 → L.getLast? = some 0x01) : payloadSum L < 2 ^ 64 := by
  obtain hnine | hten' := Nat.lt_or_eq_of_le hlen
  · exact (payloadSum_lt L).trans_le (Nat.pow_le_pow_right two_pos (by omega))
  · obtain ⟨init, rfl⟩ := List.getLast?_eq_some_iff.1 (hten hten')
    have hinit : init.length = 9 := by simpa using hten'
    have hlt := payloadSum_lt init
    have hone : payloadSum [(0x01 : Byte)] = 1 := rfl
    rw [hinit] at hlt
    rw [payloadSum_append, hinit, hone]
    omega

/-- Settles O30: a canonical sequence is the encoding of its payload sum, and an encoding decodes to its value. -/
theorem canonicalSequencesAreEncodings : Obligations.CanonicalSequencesAreEncodings := by
  refine ⟨canonical_enc, fun L hL => ?_⟩
  obtain ⟨hterm, hlen, hten, hone⟩ := (canonical_iff L).1 hL
  have henc : enc (BitVec.ofNat 64 (payloadSum L)) = L :=
    enc_payloadSum hterm hone (Nat.mod_eq_of_lt (payloadSum_lt_two_pow_64 hlen hten))
  refine ⟨_, ?_, henc.symm⟩
  have hdec := dec_enc_append (BitVec.ofNat 64 (payloadSum L)) []
  rwa [List.append_nil, ← enc_length, henc] at hdec

end Sys2Proof.Machine
end

section
/-! The sequencer family (40_sequencer.md): acceptance, what a busy core ignores, the two control states and their
handshake outputs, stalls, and exactly which steps stop. -/

namespace Sys2Proof.Machine

/-! ### Acceptance (R71 to R73) -/

/-- Decoding keeps the opcode on the command port (R52). -/
theorem opcode_command (e : EdgeIn) : e.command.opcode = e.cmdOp := by
  rw [EdgeIn.command, decode_mkCmd, opcode_decodeFields]

/-- Settles O6: the step is `exec` of the offered command, and every command records its opcode. -/
theorem acceptanceRecordsOpcode : Obligations.AcceptanceRecordsOpcode := by
  intro s hb hr
  refine ⟨fun hv => ?_, step_idle s hr hb⟩
  obtain ⟨t, ht, hop, hpc⟩ := exec_records_opcode s.nextIn.command (s := s.seen) hb
  exact ⟨t, (step_accept s hr hb hv).trans ht, ht, hop.trans (opcode_command _), hpc⟩

/-- Settles O11: `accept` followed by the load of an encode or of a decode, written out. -/
theorem streamingAcceptance : Obligations.StreamingAcceptance := by
  intro s a hb
  exact ⟨exec_encode (.enc a) a s (.inl rfl) hb, exec_encode (.senc a) (unsign a) s (.inr ⟨a, rfl, rfl⟩) hb,
    exec_decode .dec s (.inl rfl) hb, exec_decode .sdec s (.inr rfl) hb⟩

/-- Every command reaches the core through `offer` (R71, R72). -/
theorem exec_eq_offer (i : Instr) : ∃ k, ∀ s, exec i s = s.offer k := by
  cases i <;> exact ⟨_, fun _ => rfl⟩

/-- A busy core takes no command (R72; log 9). -/
theorem exec_of_busy (i : Instr) {s : State} (hb : s.busy = true) : exec i s = .next s := by
  obtain ⟨k, hk⟩ := exec_eq_offer i
  rw [hk, State.offer_of_busy s k hb]

/-- No busy step reads the command port (R72, R168). -/
theorem busyEdge_ignores_command (e : EdgeIn) (s : State) (v : Bool) (o : Opcode) (a : Word) :
    busyEdge { e with cmdValid := v, cmdOp := o, cmdArg := a } s = busyEdge e s := rfl

/-- At an edge of a busy core only the reset line and the running operation count (R168). -/
theorem clockEdge_of_busy (e : EdgeIn) {s : State} (hb : s.busy = true) :
    clockEdge e s = if e.rst then .next s.resetRegs else busyEdge e s := by
  rw [clockEdge, if_pos hb]

/-- Settles O7. -/
theorem busyCoreIgnoresTheCommandPort : Obligations.BusyCoreIgnoresTheCommandPort := by
  intro s hb
  refine ⟨by simp [State.cmdReady, hb], fun i => exec_of_busy i hb, fun e es v o a => ?_⟩
  have hseen : ({ s with inputs := e :: es } : State).seen.busy = true := hb
  calc step { s with inputs := { e with cmdValid := v, cmdOp := o, cmdArg := a } :: es }
    _ = clockEdge { e with cmdValid := v, cmdOp := o, cmdArg := a } ({ s with inputs := e :: es } : State).seen := rfl
    _ = clockEdge e ({ s with inputs := e :: es } : State).seen := by
      rw [clockEdge_of_busy _ hseen, clockEdge_of_busy _ hseen, busyEdge_ignores_command]
    _ = step { s with inputs := e :: es } := rfl

/-! ### The two control states (R70, R78) -/

theorem snkValid_of_idle {s : State} (hb : s.busy = false) : s.snkValid = false := by
  simp [State.snkValid, hb]

theorem srcReq_of_idle {s : State} (hb : s.busy = false) : s.srcReq = false := by
  simp [State.srcReq, hb]

theorem snkValid_of_busy {s : State} (hb : s.busy = true) : s.snkValid = isEncoderOp s.op := by
  simp [State.snkValid, hb]

theorem srcReq_of_busy {s : State} (hb : s.busy = true) : s.srcReq = isDecoderOp s.op := by
  simp [State.srcReq, hb]

/-- A streaming command writes or reads, never both. -/
theorem isEncoderOp_of_streaming {o : Opcode} (h : isStreamingOp o = true) : isEncoderOp o = !isDecoderOp o := by
  revert o; decide

/-- Settles O10: while busy the ports follow `OP`, which the invariant keeps to the streaming commands. -/
theorem twoControlStates : Obligations.TwoControlStates := by
  intro s hinv
  constructor
  · intro hb
    exact ⟨by simp [State.cmdReady, hb], snkValid_of_idle hb, srcReq_of_idle hb, State.observe_of_idle hb⟩
  · intro hb
    rw [snkValid_of_busy hb, srcReq_of_busy hb]
    exact ⟨by simp [State.cmdReady, hb], isEncoderOp_of_streaming (hinv.busy_streams hb), isEncoderOp_iff _,
      isDecoderOp_iff _⟩

/-! ### Stalls (R75) -/

/-- Settles O17: a stalled step leaves the state a busy core sees. -/
theorem stallChangesNoRegister : Obligations.StallChangesNoRegister := by
  intro s hb hr hstall
  rw [← isEncoderOp_iff, ← isDecoderOp_iff] at hstall
  rw [(StepCase.stall hr hb hstall).step_eq, State.seen_of_busy s hb]

/-! ### Exactly which steps stop (R78, U6; log 6, 7) -/

theorem not_fault_of_next {x : Host.Outcome State Fault Refusal} (h : ∃ t, x = .next t) : ¬ ∃ f, x = .fault f := by
  obtain ⟨t, rfl⟩ := h
  simp

theorem legal_iff (e : EdgeIn) : e.legal = true ↔ ¬ ∃ d, e.srcDrive = .reserved d := by
  cases hd : e.srcDrive <;> simp [EdgeIn.legal, hd]

/-- A serving source lets the decoder go on, finish or underflow (R112 to R114). -/
theorem decoderStep_next_of_serve (result : Word → Word) {e : EdgeIn} (hd : e.srcDrive = .serve) (s : State) :
    ∃ t, decoderStep result e s = .next t := by
  cases hs : s.src with
  | nil => exact ⟨_, decoderStep_empty result e s (.inl ⟨hd, hs⟩)⟩
  | cons b bs =>
    cases hc : contBit b with
    | true => exact ⟨_, decoderStep_more result e s b bs hd hs hc⟩
    | false => exact ⟨_, decoderStep_last result e s b bs hd hs hc⟩

/-- A decoder step stops on the source's breach and on nothing else (U6). -/
theorem decoderStep_fault_iff (result : Word → Word) (e : EdgeIn) (s : State) :
    (∃ f, decoderStep result e s = .fault f) ↔ ∃ d, e.srcDrive = .reserved d := by
  constructor
  · intro hf
    cases hd : e.srcDrive with
    | reserved d => exact ⟨d, rfl⟩
    | stall => exact absurd hf (not_fault_of_next ⟨_, decoderStep_stall result e s hd⟩)
    | empty => exact absurd hf (not_fault_of_next ⟨_, decoderStep_empty result e s (.inr hd)⟩)
    | fail c => exact absurd hf (not_fault_of_next ⟨_, decoderStep_fail result e s c hd⟩)
    | serve => exact absurd hf (not_fault_of_next (decoderStep_next_of_serve result hd s))
  · rintro ⟨d, hd⟩
    exact ⟨_, decoderStep_reserved result e s d hd⟩

/-- A busy step stops when `OP` is pure, or by a decode whose source commits the breach. -/
theorem busyEdge_fault_iff (e : EdgeIn) (s : State) :
    (∃ f, busyEdge e s = .fault f) ↔
      isStreamingOp s.op = false ∨ isDecoderOp s.op = true ∧ ∃ d, e.srcDrive = .reserved d := by
  cases hd : isDecoderOp s.op with
  | true =>
    rw [busyEdge_decoder e s hd, decoderStep_fault_iff]
    simp [isStreamingOp, hd]
  | false =>
    cases he : isEncoderOp s.op with
    | true =>
      rw [busyEdge_encoder e s he]
      simpa [isStreamingOp, he] using not_fault_of_next (encoderStep_next e s)
    | false =>
      have hpure : isStreamingOp s.op = false := by simp [isStreamingOp, he, hd]
      exact iff_of_true ⟨_, busyEdge_pure e s hpure⟩ (.inl hpure)

/-- An edge that resets, or finds the core idle, answers a next state. -/
theorem step_next_of_reset_or_idle {s : State} (h : s.nextIn.rst = true ∨ s.busy = false) :
    ∃ t, step s = .next t := by
  cases hr : s.nextIn.rst with
  | true => exact ⟨_, step_reset s hr⟩
  | false =>
    have hb : s.busy = false := by simpa [hr] using h
    cases hv : s.nextIn.cmdValid with
    | true => rw [step_accept s hr hb hv]; exact exec_next_of_idle (s := s.seen) _ hb
    | false => exact ⟨_, step_idle s hr hb hv⟩

theorem step_fault_iff (s : State) : (∃ f, step s = .fault f) ↔
    s.nextIn.rst = false ∧ s.busy = true ∧
      (isStreamingOp s.op = false ∨ isDecoderOp s.op = true ∧ ∃ d, s.nextIn.srcDrive = .reserved d) := by
  by_cases h : s.nextIn.rst = true ∨ s.busy = false
  · refine iff_of_false (not_fault_of_next (step_next_of_reset_or_idle h)) ?_
    rintro ⟨hr, hb, -⟩
    simp [hr, hb] at h
  · obtain ⟨hr, hb⟩ : s.nextIn.rst = false ∧ s.busy = true := by simpa using h
    rw [step_busy s hr hb, busyEdge_fault_iff]
    simp [hr, hb]

/-- A step that stops on nothing answers a next state: `exec` and the transfers refuse nothing (R55). -/
theorem step_next_or_fault (s : State) : (∃ t, step s = .next t) ∨ ∃ f, step s = .fault f := by
  by_cases h : s.busy = true → isStreamingOp s.op = true
  · exact (step_next_or_reserved h).imp_right fun hf => ⟨_, hf⟩
  · obtain ⟨hb, hpure⟩ : s.busy = true ∧ isStreamingOp s.op = false := by simpa using h
    cases hr : s.nextIn.rst with
    | true => exact .inl ⟨_, step_reset s hr⟩
    | false => exact .inr ((step_fault_iff s).2 ⟨hr, hb, .inl hpure⟩)

/-- Settles O44: the invariant rules the pure `OP` out, and a legal source the breach. -/
theorem stepStopsOnlyOnReservedKind : Obligations.StepStopsOnlyOnReservedKind := by
  refine ⟨step_fault_iff, fun s r hr => ?_, fun s hinv hlegal => ?_⟩
  · obtain ⟨t, ht⟩ | ⟨f, hf⟩ := step_next_or_fault s
    · exact absurd (ht.symm.trans hr) (by simp)
    · exact absurd (hf.symm.trans hr) (by simp)
  · refine (step_next_or_fault s).resolve_right fun hf => ?_
    obtain ⟨-, hb, hpure | ⟨hdec, hbreach⟩⟩ := (step_fault_iff s).1 hf
    · simp [hinv.busy_streams hb] at hpure
    · exact (legal_iff _).1 (hlegal (srcReq_of_decoder hb hdec)) hbreach

end Sys2Proof.Machine
end

section
/-! The length family (41_length.md): `length` from the count of significant bits, as table and as formula (R86, R87), as the
count of the encode loop's shifts (R89), and the command `LEN` (R88). -/

namespace Sys2Proof.Machine

/-! ### Length by significant bits (R86, R87) -/

/-- R85 in one formula: the special case of 0 is a floor at one byte. -/
theorem length_eq_max (u : Word) : length u = max 1 ((sb u + 6) / 7) := by
  by_cases hu : u = 0
  · simp [hu]
  · have hpos := sb_pos hu
    rw [length_of_ne_zero hu]
    omega

/-- The values with `n` significant bits or more start at `2^(n-1)`, and at 0 for `n = 0`. -/
theorem le_sb_iff (u : Word) (n : Nat) : n ≤ sb u ↔ 2 ^ n / 2 ≤ u.toNat := by
  cases n with
  | zero => simp
  | succ n => rw [Nat.succ_le_iff, ← not_le, sb_le_iff, not_lt, pow_succ, Nat.mul_div_cancel _ two_pos]

/-- A range of values between two powers of two has one length when its two ends have it. -/
theorem sb_length_of_range {u : Word} {lo hi n : Nat} (hlo : 2 ^ lo / 2 ≤ u.toNat) (hhi : u.toNat ≤ 2 ^ hi - 1)
    (hnlo : max 1 ((lo + 6) / 7) = n) (hnhi : max 1 ((hi + 6) / 7) = n) :
    lo ≤ sb u ∧ sb u ≤ hi ∧ length u = n := by
  have hle : lo ≤ sb u := (le_sb_iff u lo).2 hlo
  have hge : sb u ≤ hi := (sb_le_iff u hi).2 (Nat.lt_of_le_pred (Nat.two_pow_pos hi) hhi)
  refine ⟨hle, hge, ?_⟩
  rw [length_eq_max]
  omega

/-- Settles O26: every row runs from `2^lo / 2` to `2^hi - 1`, and the formula gives its length at both ends. -/
theorem lengthTable : Obligations.LengthTable := by
  intro r hr u hfrom hto
  have hrow : r.2.2.1 = 2 ^ r.1 / 2 ∧ r.2.2.2.1 = 2 ^ r.2.1 - 1 ∧
      max 1 ((r.1 + 6) / 7) = r.2.2.2.2 ∧ max 1 ((r.2.1 + 6) / 7) = r.2.2.2.2 := by
    clear hfrom hto
    revert r
    decide
  obtain ⟨hlo, hhi, hnlo, hnhi⟩ := hrow
  exact sb_length_of_range (hlo ▸ hfrom) (hhi ▸ hto) hnlo hnhi

/-- Settles O27: the offset 7 of the formula is the floor at one byte. -/
theorem compactLengthFormula : Obligations.CompactLengthFormula := by
  intro u
  have hsb : sb u ≤ 64 := sb_le u
  rw [length_eq_max]
  split <;> omega

/-! ### Length by shifts (R89) -/

/-- The encode loop puts one byte per shift and a final one. -/
theorem encLoop_length_eq_shiftCount (fuel : Nat) (u : Word) : (encLoop fuel u).length = 1 + shiftCount fuel u := by
  induction fuel generalizing u with
  | zero => rfl
  | succ fuel ih =>
    rw [encLoop, shiftCount]
    split
    · rw [List.length_cons, ih, Nat.add_assoc]
    · rfl

/-- Settles O28: with nine turns or more the encode loop puts `length u` bytes, one per shift and the final one. -/
theorem lengthCountsTheShifts : Obligations.LengthCountsTheShifts := by
  intro u fuel hfuel
  have henough : u.toNat < 2 ^ (7 * (fuel + 1)) :=
    u.isLt.trans_le (Nat.pow_le_pow_right two_pos (by omega))
  exact ⟨(encLoop_length fuel u henough).symm.trans (encLoop_length_eq_shiftCount fuel u), (enc_length u).symm⟩

/-! ### The command (R88) -/

/-- Settles O12: `LEN` is a pure command, and `length` is 1 to 10. -/
theorem lenCompletes : Obligations.LenCompletes := by
  refine ⟨fun s u hb => exec_pure (.len u) _ s rfl hb,
    fun u => ⟨cmdOp_mkCmd _ _, length_pos u, length_le_ten u⟩, ?_⟩
  decide

end Sys2Proof.Machine
end

section
/-! The encode family (42_encode.md): what the encoder offers, the three answers that move a running encode (R97 to R100),
and the whole run of an encode command (R96, R101). -/

namespace Sys2Proof.Machine

/-! ### The offer (R97) -/

/-- The offered byte as a number: the mark of R97 above the lowest group of `REM`. -/
theorem snkData_toNat (s : State) :
    s.snkData.toNat = (if 127 < s.rem.toNat then 128 else 0) + s.rem.toNat % 128 := by
  rw [State.snkData]
  cases hm : moreGroups s.rem with
  | true => rw [groupByte_true_toNat, if_pos ((moreGroups_iff _).1 hm)]
  | false =>
    have hle : ¬ 127 < s.rem.toNat := by simp [← moreGroups_iff, hm]
    rw [groupByte_false_toNat, if_neg hle, Nat.zero_add]

/-- The environment does not touch what the core offers. -/
@[simp] theorem State.seen_snkValid (s : State) : s.seen.snkValid = s.snkValid := rfl

/-! ### The sink's answers (R98 to R100) -/

/-- Settles O18: a stall leaves the offering registers as they are, and the advance is `encMore` on what a busy core sees. -/
theorem encoderAdvances : Obligations.EncoderAdvances := by
  intro s hb hop
  have ho : isEncoderOp s.op = true := (isEncoderOp_iff _).2 hop
  have hvalid : s.snkValid = true := snkValid_of_encoder hb ho
  refine ⟨hvalid, snkData_toNat s, fun hr hk => ?_, fun hr hk hx hm => ?_⟩
  · exact ⟨s.seen, (StepCase.stall hr hb (.inl ⟨ho, hk⟩)).step_eq, s.seen_snkValid.trans hvalid, s.seen_snkData⟩
  · rw [(StepCase.encMore hr hb ho hk hx hm).step_eq, State.seen_of_busy s hb]

/-- Settles O19: `encLast` on what a busy core sees, its completion written out. -/
theorem encoderFinishes : Obligations.EncoderFinishes := by
  intro s hb hop hr hk hx hm
  have ho : isEncoderOp s.op = true := (isEncoderOp_iff _).2 hop
  rw [(StepCase.encLast hr hb ho hk hx hm).step_eq, State.seen_of_busy s hb]
  rfl

/-- Settles O20: `encFail` on what a busy core sees; the value `RES` takes is the next draw. -/
theorem sinkFailureEndsTheEncode : Obligations.SinkFailureEndsTheEncode := by
  intro s hb hop hr hk hx
  have ho : isEncoderOp s.op = true := (isEncoderOp_iff _).2 hop
  refine ⟨Config.freeRes s.draws, s.draws + 1, ?_⟩
  rw [(StepCase.encFail hr hb ho hk hx).step_eq, State.seen_of_busy s hb]
  rfl

/-! ### The run of an encode command (R96, R101) -/

/-- A byte count fits `CNT` (R17, R101). -/
theorem length_cnt_toNat (u : Word) : (BitVec.ofNat 4 (length u)).toNat = length u :=
  Nat.mod_eq_of_lt ((length_le_ten u).trans_lt (by norm_num))

/-- Settles O50: the fields of the state in which the run of an encode command completes. -/
theorem encodeRunPutsTheEncoding : Obligations.EncodeRunPutsTheEncoding := by
  intro s i u a es rest hb hin ha hi hw hcount hlast
  obtain ⟨r, hrun⟩ := run_encode_command hb hin ha hi hw hcount hlast
  exact ⟨_, hrun, rfl, rfl, rfl, rfl, rfl, length_cnt_toNat u, rfl, rfl, rfl, rfl, rfl, rfl, rfl, rfl⟩

end Sys2Proof.Machine
end

section
/-! The decode family (43_decode.md): the decode loop as a payload sum and what padding does to it (R110, R116, R117), the
addition without a carry (R119), the three answers that move a running decode (R112 to R115), and the whole run of a decode
command, to its value or to its underflow (R111, R114, R118). -/

namespace Sys2Proof.Machine

/-! ### The decode loop and the payload sum (R110, R116) -/

/-- A sequence marked up to its last byte is terminated (R58, R63). -/
theorem terminated_append_singleton {pre : List Byte} {last : Byte} (hpre : ∀ b ∈ pre, contBit b = true)
    (hlast : contBit last = false) : terminated (pre ++ [last]) = true := by
  induction pre with
  | nil => simp [terminated, hlast]
  | cons b pre ih =>
    obtain ⟨hb, hpre⟩ := List.forall_mem_cons.1 hpre
    exact terminated_cons hb (ih hpre)

/-- The payload sum modulo `2^64`, group by group. -/
theorem ofNat_payloadSum_cons (b : Byte) (L : List Byte) :
    BitVec.ofNat 64 (payloadSum (b :: L)) = payload b + 128 * BitVec.ofNat 64 (payloadSum L) := by
  rw [payloadSum, BitVec.ofNat_add, BitVec.ofNat_mul, BitVec.ofNat_toNat, BitVec.setWidth_eq]
  rfl

/-- From any accumulator and multiplier the decode loop adds the payload sum of a terminated sequence, scaled, and takes
exactly its bytes. -/
theorem decLoop_terminated_append {L : List Byte} (h : terminated L = true) (T : List Byte) (acc fac : Word) (k : Nat) :
    decLoop acc fac k (L ++ T) = .ok (acc + fac * BitVec.ofNat 64 (payloadSum L)) (k + L.length) := by
  induction L, h using terminated_induction generalizing acc fac k with
  | last b _ hb => simp [decLoop, hb, payloadSum]
  | more b L hb hL ih =>
    have hval : acc + fac * payload b + fac <<< 7 * BitVec.ofNat 64 (payloadSum L) =
        acc + fac * BitVec.ofNat 64 (payloadSum (b :: L)) := by
      rw [shl7_eq_mul, ofNat_payloadSum_cons]
      ring
    have hcount : k + 1 + L.length = k + (b :: L).length := by
      rw [List.length_cons]
      omega
    simp only [List.cons_append, decLoop, hb, if_true, ih, hval, hcount]

theorem dec_terminated_append {L : List Byte} (h : terminated L = true) (T : List Byte) :
    dec (L ++ T) = .ok (BitVec.ofNat 64 (payloadSum L)) L.length := by
  simp [dec, decLoop_terminated_append h]

/-- The decode loop underflows exactly when no byte terminates it (R110). -/
theorem decLoop_underflow_iff (S : List Byte) (acc fac : Word) (k : Nat) :
    decLoop acc fac k S = .underflow ↔ ∀ b ∈ S, contBit b = true := by
  induction S generalizing acc fac k with
  | nil => simp [decLoop]
  | cons b S ih => cases hc : contBit b <;> simp [decLoop, hc, ih]

theorem dec_underflow_iff (S : List Byte) : dec S = .underflow ↔ ∀ b ∈ S, contBit b = true :=
  decLoop_underflow_iff S 0 1 0

/-- Settles O36: bytes marked up to a clear one are a terminated sequence; marked bytes alone are none. -/
theorem decodedValueIsThePayloadSum : Obligations.DecodedValueIsThePayloadSum := by
  refine ⟨fun pre last T hpre hlast => ?_, fun S hS => ?_⟩
  · simp only [← contBit_iff, ← contBit_false_iff] at hpre hlast
    have h := dec_terminated_append (terminated_append_singleton hpre hlast) T
    rwa [List.append_assoc, List.singleton_append, List.length_append, List.length_singleton] at h
  · simp only [← contBit_iff] at hS
    exact (dec_underflow_iff S).2 hS

/-! ### Padding (R117) -/

theorem contBit_or_mark (b : Byte) : contBit (b ||| 0x80#8) = true := by
  revert b; decide

theorem payload_or_mark (b : Byte) : payload (b ||| 0x80#8) = payload b := by
  revert b; decide

/-- Padding a single byte: the byte marked, the marked zero groups, the last zero group. -/
theorem padded_singleton (b : Byte) (n : Nat) :
    padded [b] n = ((b ||| 0x80#8) :: List.replicate n 0x80#8) ++ [0x00#8] := rfl

/-- Padding works on the last byte alone. -/
theorem padded_cons (b : Byte) {L : List Byte} (h : terminated L = true) (n : Nat) :
    padded (b :: L) n = b :: padded L n := by
  cases L with
  | nil => cases h
  | cons c L => simp [padded]

theorem payloadSum_replicate_mark (n : Nat) : payloadSum (List.replicate n 0x80#8) = 0 := by
  induction n with
  | zero => rfl
  | succ n ih =>
    have hmark : (payload 0x80#8).toNat = 0 := rfl
    rw [List.replicate_succ, payloadSum, ih, hmark, Nat.zero_add, Nat.mul_zero]

theorem payloadSum_padded_singleton (b : Byte) (n : Nat) : payloadSum (padded [b] n) = payloadSum [b] := by
  have hzero : payloadSum [0x00#8] = 0 := rfl
  rw [padded_singleton, payloadSum_append, hzero]
  simp only [payloadSum, payload_or_mark, payloadSum_replicate_mark, mul_zero, add_zero]

theorem terminated_padded {L : List Byte} (h : terminated L = true) (n : Nat) : terminated (padded L n) = true := by
  induction L, h using terminated_induction with
  | last b _ _ =>
    refine terminated_append_singleton (List.forall_mem_cons.2 ⟨contBit_or_mark b, fun c hc => ?_⟩) rfl
    rw [List.eq_of_mem_replicate hc]
    rfl
  | more b L hb hL ih =>
    rw [padded_cons b hL]
    exact terminated_cons hb ih

/-- Zero groups on top add nothing to the payload sum. -/
theorem payloadSum_padded {L : List Byte} (h : terminated L = true) (n : Nat) : payloadSum (padded L n) = payloadSum L := by
  induction L, h using terminated_induction with
  | last b => exact payloadSum_padded_singleton b n
  | more b L _ hL ih => rw [padded_cons b hL, payloadSum, ih, payloadSum]

theorem length_padded {L : List Byte} (h : terminated L = true) (n : Nat) : (padded L n).length = L.length + n + 1 := by
  have hpos := length_pos_of_terminated h
  simp only [padded, List.length_append, List.length_dropLast, List.length_replicate, List.length_singleton]
  omega

/-- Settles O37: a padded sequence is terminated with the same payload sum; the examples are evaluated. -/
theorem paddingAddsNothing : Obligations.PaddingAddsNothing := by
  refine ⟨fun L v n T hL hdec => ?_, by decide, by decide, by decide⟩
  have hvalue := dec_terminated_append hL []
  rw [List.append_nil, hdec] at hvalue
  obtain ⟨hv, -⟩ := DecResult.ok.inj hvalue
  rw [dec_terminated_append (terminated_padded hL n), payloadSum_padded hL, length_padded hL, hv]

/-! ### The addition without a carry (R119) -/

/-- A multiple of `2^k` and a value below `2^k` have no bit in common: their sum is their OR. -/
theorem toNat_or_of_lt_of_dvd {a x : Word} {k : Nat} (ha : a.toNat < 2 ^ k) (hx : 2 ^ k ∣ x.toNat) :
    (a ||| x).toNat = a.toNat + x.toNat := by
  obtain ⟨q, hq⟩ := hx
  rw [BitVec.toNat_or, hq, Nat.or_comm, ← Nat.two_pow_add_eq_or_of_lt ha, Nat.add_comm]

/-- Multiplying by `FAC = 2^j` shifts into place. -/
theorem mul_eq_shiftLeft_of_toNat {f : Word} {j : Nat} (hf : f.toNat = 2 ^ j) (hj : j < 64) (p : Word) :
    f * p = p <<< j := by
  have hpow : f = BitVec.twoPow 64 j := by
    apply BitVec.eq_of_toNat_eq
    rw [hf, BitVec.toNat_twoPow_of_lt hj]
  rw [hpow, BitVec.mul_comm, BitVec.shiftLeft_eq_mul_twoPow]

theorem two_pow_dvd_shiftLeft_toNat (p : Word) {j : Nat} (hj : j < 64) : 2 ^ j ∣ (p <<< j).toNat := by
  rw [BitVec.toNat_shiftLeft, Nat.shiftLeft_eq, Nat.dvd_mod_iff (pow_dvd_pow 2 hj.le)]
  exact Nat.dvd_mul_left _ _

/-- The addition of a running decode is an OR, as numbers (R119). -/
theorem State.decoderInv.toNat_or {s : State} (h : s.decoderInv) (b : Byte) :
    (s.acc ||| s.fac * payload b).toNat = s.acc.toNat + (s.fac * payload b).toNat := by
  obtain hf | ⟨k, hk, hf, ha⟩ := h
  · simp [hf]
  · have hshift : 7 * k < 64 := by omega
    rw [mul_eq_shiftLeft_of_toNat hf hshift]
    exact toNat_or_of_lt_of_dvd ha (two_pow_dvd_shiftLeft_toNat _ hshift)

/-- Settles O24: the sum is the value of the OR, a 64-bit word; the product is a shift because `FAC` is a power of two. -/
theorem accumulationNeverCarries : Obligations.AccumulationNeverCarries := by
  intro s b h
  have hor := h.toNat_or b
  refine ⟨hor ▸ BitVec.isLt _, BitVec.eq_of_toNat_eq ?_, fun k hk hf => mul_eq_shiftLeft_of_toNat hf (by omega) _⟩
  rw [BitVec.toNat_add, ← hor, Nat.mod_eq_of_lt (BitVec.isLt _)]

/-! ### The source's answers (R112 to R115) -/

theorem payload_eq_ofNat (b : Byte) : payload b = BitVec.ofNat 64 (b.toNat % 128) := by
  rw [← payload_toNat, BitVec.ofNat_toNat, BitVec.setWidth_eq]

/-- Settles O21: `decMore` and `decLast` on what a busy core sees, written out. -/
theorem decoderTakesAByte : Obligations.DecoderTakesAByte := by
  intro s hb hop
  have ho : isDecoderOp s.op = true := (isDecoderOp_iff _).2 hop
  refine ⟨srcReq_of_decoder hb ho, fun b rest hr hd hs => ?_⟩
  rw [← seen_src_of_busy hb] at hs
  rw [← payload_eq_ofNat, ← contBit_iff, ← contBit_false_iff]
  refine ⟨fun hc => ?_, fun hc => ?_⟩
  · rw [(StepCase.decMore hr hb ho b rest hd hs hc).step_eq, State.seen_of_busy s hb]
    rfl
  · rw [(StepCase.decLast hr hb ho b rest hd hs hc).step_eq, State.seen_of_busy s hb]
    rfl

/-- Settles O22: `decFail` with the underflow status; the value `RES` takes is the next draw. -/
theorem emptySourceUnderflows : Obligations.EmptySourceUnderflows := by
  intro s hb hop hr hempty
  have ho : isDecoderOp s.op = true := (isDecoderOp_iff _).2 hop
  rw [← seen_src_of_busy hb] at hempty
  refine ⟨Config.freeRes s.draws, s.draws + 1, ?_⟩
  rw [(StepCase.decFail hr hb ho stUnderflow 0 (.inl ⟨rfl, rfl, hempty⟩)).step_eq, State.seen_of_busy s hb]
  rfl

/-- Settles O23: `decFail` with the source's code; the value `RES` takes is the next draw. -/
theorem sourceFailureEndsTheDecode : Obligations.SourceFailureEndsTheDecode := by
  intro s c hb hop hr hfail
  have ho : isDecoderOp s.op = true := (isDecoderOp_iff _).2 hop
  refine ⟨Config.freeRes s.draws, s.draws + 1, ?_⟩
  rw [(StepCase.decFail hr hb ho stExt c (.inr ⟨rfl, hfail⟩)).step_eq, State.seen_of_busy s hb]
  rfl

/-! ### The run of a decode command (R111, R114, R118) -/

/-- Settles O51: the fields of the state in which the run of a decode command completes. -/
theorem decodeRunReturnsTheValue : Obligations.DecodeRunReturnsTheValue := by
  intro s i v r k a es rest hb hin ha hi hdec hserved hw hcount hlast
  obtain ⟨hi', rfl⟩ := decoderResult_of_decode hi
  obtain ⟨f, hrun⟩ := run_decode_command hb hin ha hi' hdec hserved hw hcount hlast
  exact ⟨_, hrun, rfl, rfl, rfl, rfl, rfl, rfl, rfl, rfl, rfl, rfl, rfl, rfl, rfl⟩

/-- The next edge of a running decode at which the source has no byte left (R114). -/
theorem step_decoder_underflow {s : State} {e : EdgeIn} {es : List EdgeIn} (hb : s.busy = true)
    (ho : isDecoderOp s.op = true) (hin : s.inputs = e :: es) (hw : e.sourceWorks = true)
    (hd : (e.srcDrive == .serve) = true) (hs : s.src ++ e.srcArrive = []) :
    step s = .next ({ s with inputs := es, src := [] } : State).raiseUnderflow := by
  obtain ⟨hr, -⟩ := (sourceWorks_iff e).1 hw
  have hserve : e.srcDrive = .serve := by simpa using hd
  have hsrc : s.seen.src = [] := by rw [State.seen_of_busy_cons hb hin, ← hs]
  rw [← State.nextIn_cons s e es hin] at hr hserve
  rw [(StepCase.decFail hr hb ho stUnderflow 0 (.inl ⟨rfl, rfl, .inl ⟨hserve, hsrc⟩⟩)).step_eq,
    State.seen_of_busy_cons hb hin, hs, State.raiseUnderflow_eq]

/-- A running decode whose source holds only marked bytes, receives none, and is asked once per byte and once more, the last
time at the last edge: it takes every byte and underflows. -/
theorem run_decoder_underflow {n : Nat} {es : List EdgeIn} (hturns : Turns (·.srcDrive == .serve) n es) {s : State}
    {rest : List EdgeIn} (hb : s.busy = true) (ho : isDecoderOp s.op = true) (hin : s.inputs = es ++ rest)
    (hw : ∀ e ∈ es, e.sourceWorks = true) (harr : arrivals es = []) (hmarked : ∀ b ∈ s.src, contBit b = true)
    (hn : n = s.src.length + 1) :
    ∃ acc fac, run es.length s = .next ({ s with
      inputs := rest, src := [], srcCur := s.srcCur + s.src.length, acc := acc, fac := fac } : State).raiseUnderflow := by
  induction hturns generalizing s with
  | @last e he =>
    obtain ⟨hwe, -⟩ := List.forall_mem_cons.1 hw
    have hnil : s.src = [] := List.length_eq_zero_iff.1 (by omega)
    have hempty : s.src ++ e.srcArrive = [] := by simpa [hnil] using harr
    refine ⟨s.acc, s.fac, ?_⟩
    rw [List.length_singleton, run_succ (step_decoder_underflow hb ho hin hwe he hempty), hnil]
    rfl
  | @turn e n es he h ih =>
    obtain ⟨hwe, hwes⟩ := List.forall_mem_cons.1 hw
    rw [arrivals_cons, List.append_eq_nil_iff] at harr
    obtain ⟨hearr, harr⟩ := harr
    cases hsrc : s.src with
    | nil =>
      have hpos := h.pos
      simp only [hsrc, List.length_nil] at hn
      omega
    | cons b bs =>
      rw [hsrc] at hmarked hn
      obtain ⟨hc, hmarked⟩ := List.forall_mem_cons.1 hmarked
      have hs : s.src ++ e.srcArrive = b :: bs := by rw [hsrc, hearr, List.append_nil]
      rw [List.length_cons, run_succ (step_decoder_more hb ho hin hwe he hs hc)]
      obtain ⟨acc, fac, hrun⟩ := ih (s := ({ s with inputs := es ++ rest, src := bs, srcCur := s.srcCur + 1 } :
        State).accumulate b) hb ho rfl hwes harr hmarked (Nat.succ_injective hn)
      refine ⟨acc, fac, hrun.trans ?_⟩
      have hcur : s.srcCur + 1 + bs.length = s.srcCur + (b :: bs).length := by
        rw [List.length_cons]
        omega
      simp only [State.accumulate_srcCur, State.accumulate_src, hcur]
      rfl
  | @wait e n es he h ih =>
    obtain ⟨hwe, hwes⟩ := List.forall_mem_cons.1 hw
    rw [arrivals_cons, List.append_eq_nil_iff] at harr
    obtain ⟨hearr, harr⟩ := harr
    have hstall := step_decoder_wait hb ho hin hwe he
    rw [hearr, List.append_nil] at hstall
    rw [List.length_cons, run_succ hstall]
    exact ih (s := { s with inputs := es ++ rest }) hb ho rfl hwes harr hmarked hn

/-- Settles O53: acceptance leaves a running decode over marked bytes, whose run underflows. -/
theorem decodeRunUnderflows : Obligations.DecodeRunUnderflows := by
  intro s i a es rest hb hin ha hi hdec harr hw hcount hlast
  have hturns := turns_of_countP hlast
  have hinputs : s.seen.inputs = es ++ rest := by simp [hin]
  obtain ⟨acc, fac, hrun⟩ := run_decoder_underflow (s := (s.seen.accept i.opcode).startDecode) hturns rfl
    (isDecoderOp_of_decode hi) hinputs hw harr ((dec_underflow_iff _).1 hdec) hcount
  exact ⟨_, (run_succ (step_accept_decode hb hin ha hi) _).trans hrun, rfl, rfl, rfl, rfl, rfl, rfl, rfl, rfl, rfl⟩

end Sys2Proof.Machine
end

section
/-! The signed family (44_signed.md): the shift-and-XOR forms of the zigzag maps over the integers and bit for bit (R125 to
R128), their inverse laws (R129), and the commands `ZZE`, `ZZD` and `SLEN` (R130 to R132). -/

namespace Sys2Proof.Machine

/-! ### The XOR with a mask of sign bits is a conditional complement (R126, R128) -/

theorem getLsbD_sshiftRight_63 (a : Word) {i : Nat} (hi : i < 64) : (a.sshiftRight 63).getLsbD i = a.msb := by
  rw [BitVec.getLsbD_sshiftRight, BitVec.msb_eq_getLsbD_last, decide_eq_false hi.not_ge, Bool.not_false, Bool.true_and,
    ite_eq_right_iff]
  intro hlow
  rw [show i = 0 by omega]

/-- The arithmetic shift by 63 fills the word with the sign bit. -/
theorem sshiftRight_63 (a : Word) : a.sshiftRight 63 = bif a.msb then BitVec.allOnes 64 else 0#64 := by
  apply BitVec.eq_of_getLsbD_eq
  intro i hi
  rw [getLsbD_sshiftRight_63 a hi]
  cases a.msb with
  | false => rw [cond_false, BitVec.getLsbD_zero]
  | true => rw [cond_true, BitVec.getLsbD_allOnes, decide_eq_true hi]

/-- The negation of the lowest bit fills the word with it. -/
theorem zero_sub_and_one (u : Word) : 0#64 - (u &&& 1#64) = bif u.getLsbD 0 then BitVec.allOnes 64 else 0#64 := by
  rw [BitVec.and_one_eq_setWidth_ofBool_getLsbD]
  cases u.getLsbD 0 <;> decide

theorem unsign_of_nonneg {a : Word} (h : a.msb = false) : unsign a = a <<< 1 := by
  rw [unsign, sshiftRight_63, h, cond_false, BitVec.xor_zero]

theorem unsign_of_neg {a : Word} (h : a.msb = true) : unsign a = ~~~(a <<< 1) := by
  rw [unsign, sshiftRight_63, h, cond_true, BitVec.xor_allOnes]

theorem sign_of_even {u : Word} (h : u.getLsbD 0 = false) : sign u = u >>> 1 := by
  rw [sign, BitVec.ofNat_eq_ofNat, BitVec.ofNat_eq_ofNat, zero_sub_and_one, h, cond_false, BitVec.xor_zero]

theorem sign_of_odd {u : Word} (h : u.getLsbD 0 = true) : sign u = ~~~(u >>> 1) := by
  rw [sign, BitVec.ofNat_eq_ofNat, BitVec.ofNat_eq_ofNat, zero_sub_and_one, h, cond_true, BitVec.xor_allOnes]

/-! ### Bit for bit -/

theorem getLsbD_unsign (a : Word) {i : Nat} (hi : i < 64) :
    (unsign a).getLsbD i = ((!decide (i < 1) && a.getLsbD (i - 1)) ^^ a.msb) := by
  rw [unsign, BitVec.getLsbD_xor, BitVec.getLsbD_shiftLeft, decide_eq_true hi, Bool.true_and, getLsbD_sshiftRight_63 a hi]

theorem getLsbD_sign (u : Word) {i : Nat} (hi : i < 64) :
    (sign u).getLsbD i = (u.getLsbD (i + 1) ^^ u.getLsbD 0) := by
  cases hu : u.getLsbD 0 with
  | false => rw [sign_of_even hu, BitVec.getLsbD_ushiftRight, Nat.add_comm, Bool.xor_false]
  | true =>
    rw [sign_of_odd hu, BitVec.getLsbD_not, BitVec.getLsbD_ushiftRight, Nat.add_comm, decide_eq_true hi, Bool.true_and,
      Bool.xor_true]

/-! ### Over the integers (R125, R127) -/

theorem unsign_toNat (a : Word) : ((unsign a).toNat : Int) = unsignInt (signed a) := by
  have hlt := a.isLt
  cases ha : a.msb with
  | false =>
    have hnat : a.toNat < 2 ^ 63 := by simpa [BitVec.msb_eq_decide] using ha
    rw [unsign_of_nonneg ha, signed_of_lt hnat, BitVec.toNat_shiftLeft, Nat.shiftLeft_eq, unsignInt]
    omega
  | true =>
    have hnat : 2 ^ 63 ≤ a.toNat := by simpa [BitVec.msb_eq_decide] using ha
    rw [unsign_of_neg ha, signed_of_ge hnat, BitVec.toNat_not, BitVec.toNat_shiftLeft, Nat.shiftLeft_eq, unsignInt]
    omega

theorem signed_sign (u : Word) : signed (sign u) = signInt u.toNat := by
  have hlt := u.isLt
  cases hu : u.getLsbD 0 with
  | false =>
    have heven : u.toNat % 2 = 0 := Nat.mod_two_eq_zero_iff_testBit_zero.2 hu
    have hnat : (sign u).toNat = u.toNat / 2 := by
      rw [sign_of_even hu, BitVec.toNat_ushiftRight, Nat.shiftRight_eq_div_pow, pow_one]
    rw [signed_of_lt (by omega), hnat, signInt, if_pos heven]
  | true =>
    have hodd : u.toNat % 2 = 1 := Nat.mod_two_eq_one_iff_testBit_zero.2 hu
    have hnat : (sign u).toNat = 2 ^ 64 - 1 - u.toNat / 2 := by
      rw [sign_of_odd hu, BitVec.toNat_not, BitVec.toNat_ushiftRight, Nat.shiftRight_eq_div_pow, pow_one]
    rw [signed_of_ge (by omega), hnat, signInt]
    omega

/-- Settles O39: a sign bit of 0 leaves the shifted word, a sign bit of 1 complements it. -/
theorem unsignIsTheZigzagMap : Obligations.UnsignIsTheZigzagMap := by
  intro a
  refine ⟨unsign_toNat a, ?_, fun i hlo hhi => ?_⟩
  · rw [getLsbD_unsign a (by omega), BitVec.msb_eq_getLsbD_last]
    simp
  · rw [getLsbD_unsign a (by omega), BitVec.msb_eq_getLsbD_last, decide_eq_false (by omega)]
    simp

/-- Settles O40: a lowest bit of 0 leaves the shifted word, a lowest bit of 1 complements it. -/
theorem signIsTheInverseMap : Obligations.SignIsTheInverseMap := by
  intro u
  refine ⟨signed_sign u, ?_, fun i hi => getLsbD_sign u (by omega)⟩
  rw [getLsbD_sign u (by omega), BitVec.getLsbD_of_ge u 64 le_rfl, Bool.false_xor]

/-! ### The inverse laws (R129) -/

theorem signInt_of_eq_unsignInt {n : Nat} {z : Int} (h : (n : Int) = unsignInt z) : signInt n = z := by
  unfold unsignInt at h
  unfold signInt
  split at h <;> split <;> omega

theorem unsignInt_signInt (n : Nat) : unsignInt (signInt n) = n := by
  unfold signInt unsignInt
  split <;> split <;> omega

theorem sign_unsign (a : Word) : sign (unsign a) = a := by
  rw [← twos_signed (sign _), signed_sign, signInt_of_eq_unsignInt (unsign_toNat a), twos_signed]

theorem unsign_sign (u : Word) : unsign (sign u) = u := by
  apply BitVec.eq_of_toNat_eq
  have h := unsign_toNat (sign u)
  rw [signed_sign, unsignInt_signInt] at h
  exact_mod_cast h

/-- Settles O41: the inverse laws of the integer maps, carried over to the patterns. -/
theorem zigzagMapsAreInverse : Obligations.ZigzagMapsAreInverse := ⟨sign_unsign, unsign_sign⟩

/-! ### The commands (R130 to R132) -/

/-- Settles O13: `ZZE` is a pure command. -/
theorem zzeCompletes : Obligations.ZzeCompletes := by
  refine ⟨fun s a hb => exec_pure (.zze a) _ s rfl hb, fun a => cmdOp_mkCmd _ _, ?_⟩
  decide

/-- Settles O14: `ZZD` is a pure command. -/
theorem zzdCompletes : Obligations.ZzdCompletes := by
  refine ⟨fun s u hb => exec_pure (.zzd u) _ s rfl hb, fun u => cmdOp_mkCmd _ _, ?_⟩
  decide

/-- The zigzag map takes the signed range `[-p, p)` onto the unsigned values below `2p`. -/
theorem unsignInt_lt_iff (z p : Int) : unsignInt z < 2 * p ↔ -p ≤ z ∧ z < p := by
  unfold unsignInt
  split <;> omega

/-- `SLEN s ≤ m` exactly when `s` is in the range R132 gives for `m` bytes. -/
theorem length_unsign_le_iff (a : Word) {m : Nat} (hm : 1 ≤ m) :
    length (unsign a) ≤ m ↔ -(2 ^ (7 * m - 1)) ≤ signed a ∧ signed a < 2 ^ (7 * m - 1) := by
  have hpow : (2 : Int) ^ (7 * m) = 2 * 2 ^ (7 * m - 1) := by
    rw [← pow_succ', Nat.sub_add_cancel (by omega)]
  rw [length_le_iff _ hm, ← unsignInt_lt_iff, ← unsign_toNat, ← hpow]
  exact_mod_cast Iff.rfl

/-- Settles O15: `SLEN` is a pure command, and its count is the least whose range holds `s`. -/
theorem slenCompletes : Obligations.SlenCompletes := by
  refine ⟨fun s a hb => exec_pure (.slen a) _ s rfl hb, by decide, fun a => ⟨cmdOp_mkCmd _ _, ?_⟩⟩
  refine ⟨length_pos _, length_le_ten _, fun _ => ?_, fun m hm hlt => ?_⟩
  · exact (length_unsign_le_iff a (length_pos _)).1 le_rfl
  · exact mt (length_unsign_le_iff a hm).2 hlt.not_ge

end Sys2Proof.Machine
end

section
/-! The laws family (45_laws.md): the round trips (R145, R146), minimality of the encoding (R148), packed sequences of
encodings (R149), and the encodings as a code: injective, none the beginning of
another (R150, R151). -/

namespace Sys2Proof.Machine

/-! ### The round trips (R145, R146) -/

/-- Settles O31: the decode loop adds the encoded value and takes exactly its bytes. -/
theorem unsignedRoundTrip : Obligations.UnsignedRoundTrip := dec_enc_append

/-- Settles O32: the unsigned round trip, undone by the inverse law of the zigzag maps. -/
theorem signedRoundTrip : Obligations.SignedRoundTrip :=
  fun a T => ⟨unsign a, length (unsign a), dec_enc_append (unsign a) T, sign_unsign a⟩

/-! ### The shortest sequence for a value (R148) -/

/-- A sequence the decode loop consumes whole is terminated: it ends at the first byte without the mark. -/
theorem terminated_of_decLoop {acc fac : Word} {k : Nat} {L : List Byte} {v : Word}
    (h : decLoop acc fac k L = .ok v (k + L.length)) : terminated L = true := by
  induction L generalizing acc fac k with
  | nil => cases h
  | cons b L ih =>
    have hcount : k + (b :: L).length = k + 1 + L.length := by
      rw [List.length_cons]
      omega
    rw [hcount] at h
    cases hc : contBit b with
    | true => exact terminated_cons hc (ih (by simpa [decLoop, hc] using h))
    | false =>
      obtain ⟨-, rfl⟩ : _ = v ∧ L = [] := by simpa [decLoop, hc] using h
      simp [terminated, hc]

theorem terminated_of_dec {L : List Byte} {v : Word} (h : dec L = .ok v L.length) : terminated L = true :=
  terminated_of_decLoop (k := 0) (by rwa [Nat.zero_add])

/-- A sequence that decodes whole, with no payload bit from 64 on, decodes to its payload sum itself. -/
theorem toNat_eq_payloadSum_of_dec {L : List Byte} {u : Word} (h : dec L = .ok u L.length) (hsum : payloadSum L < 2 ^ 64) :
    u.toNat = payloadSum L := by
  have hdec := dec_terminated_append (terminated_of_dec h) []
  rw [List.append_nil, h] at hdec
  obtain ⟨rfl, -⟩ := DecResult.ok.inj hdec
  exact Nat.mod_eq_of_lt hsum

/-- A zero byte on top leaves the payload sum to the bytes below it, so these are enough for the value. -/
theorem length_lt_of_zero_top {L : List Byte} {u : Word} (hu : u.toNat = payloadSum L) (hone : 1 < L.length)
    (hlast : L.getLast? = some 0x00) : length u < L.length := by
  obtain ⟨init, rfl⟩ := List.getLast?_eq_some_iff.1 hlast
  have hzero : payloadSum [(0x00 : Byte)] = 0 := rfl
  have hinit := payloadSum_lt init
  rw [payloadSum_append, hzero, Nat.mul_zero, Nat.add_zero] at hu
  rw [List.length_append, List.length_singleton] at hone ⊢
  exact Nat.lt_succ_of_le ((length_le_iff u (by omega)).2 (hu ▸ hinit))

theorem payloadSum_enc (u : Word) : payloadSum (enc u) < 2 ^ 64 :=
  have ⟨_, hlen, hten, _⟩ := (canonical_iff _).1 (canonical_enc u)
  payloadSum_lt_two_pow_64 hlen hten

/-- Settles O33: a sequence with the value `u` is `enc u` itself when its top byte is not zero, and otherwise has a byte more
than `u` needs. -/
theorem encodingIsMinimal : Obligations.EncodingIsMinimal := by
  intro u
  have hdec := dec_enc_append u []
  rw [List.append_nil, ← enc_length] at hdec
  refine ⟨hdec, payloadSum_enc u, enc_length u, fun L hL hsum => ?_⟩
  have hu := toNat_eq_payloadSum_of_dec hL hsum
  by_cases htop : 1 < L.length ∧ L.getLast? = some 0x00
  · obtain ⟨hone, hlast⟩ := htop
    right
    rw [enc_length]
    exact length_lt_of_zero_top hu hone hlast
  · left
    exact (enc_payloadSum (terminated_of_dec hL) (not_and.1 htop) hu).symm

/-! ### Packed encodings (R149) -/

/-- Packed encodings decode value by value and leave what follows them. -/
theorem decMany_flatMap_enc (us : List Word) (T : List Byte) :
    decMany us.length (us.flatMap enc ++ T) = some (us, T) := by
  induction us with
  | nil => rfl
  | cons u us ih =>
    have hrest : (enc u ++ (us.flatMap enc ++ T)).drop (length u) = us.flatMap enc ++ T :=
      List.drop_left' (enc_length u)
    rw [List.flatMap_cons, List.append_assoc, List.length_cons]
    simp only [decMany, dec_enc_append, hrest, ih, Option.map_some]

/-- Settles O34: value by value; the signed values through their unsigned images. -/
theorem packedEncodingsDecodeInOrder : Obligations.PackedEncodingsDecodeInOrder := by
  refine ⟨decMany_flatMap_enc, fun as T => ⟨as.map unsign, ?_, ?_⟩⟩
  · have h := decMany_flatMap_enc (as.map unsign) T
    rwa [List.length_map, List.flatMap_map] at h
  · simp [Function.comp_def, sign_unsign]

/-! ### Encodings as a code (R150, R151) -/

/-- The decoder reads one value off a sequence, so no encoding begins another's (R151). -/
theorem eq_of_enc_prefix {u v : Word} (h : enc u <+: enc v) : u = v := by
  obtain ⟨T, hT⟩ := h
  have hu := dec_enc_append u T
  rw [hT, ← List.append_nil (enc v), dec_enc_append] at hu
  exact (DecResult.ok.inj hu).1.symm

theorem enc_injective : Function.Injective enc :=
  fun _ _ h => eq_of_enc_prefix (h ▸ List.prefix_rfl)

theorem unsign_injective : Function.Injective unsign :=
  Function.LeftInverse.injective sign_unsign

/-- Settles O35: equal encodings begin each other, and both maps of the signed encoding are injective. -/
theorem encodingsArePrefixFree : Obligations.EncodingsArePrefixFree :=
  ⟨fun _ _ => eq_of_enc_prefix, fun _ _ h => unsign_injective (enc_injective h)⟩

end Sys2Proof.Machine
end

section
/-! The exceptions family (60_exceptions.md): the answers at the stream ports that end an operation in failure, and the
outcome each of them reports (R161, R163, R164). -/

namespace Sys2Proof.Machine

/-! ### The failing answers -/

/-- The running decode's request is answered `Empty` (R32, R161). -/
def State.GetsEmpty (s : State) : Prop :=
  s.srcReq = true ∧ (s.nextIn.srcDrive = .empty ∨ s.nextIn.srcDrive = .serve ∧ s.seen.src = [])

/-- The running encode's offer is answered `XErr` (R27, R163). -/
def State.PutsXErr (s : State) : Prop :=
  s.snkValid = true ∧ s.nextIn.snkReady = true ∧ s.nextIn.snkErr = true

/-- The running decode's request is answered `XErr(c)` (R28, R163). -/
def State.GetsXErr (s : State) (c : Byte) : Prop := s.srcReq = true ∧ s.nextIn.srcDrive = .fail c

theorem not_snkValid_of_srcReq {s : State} (h : s.srcReq = true) : s.snkValid = false :=
  snkValid_of_decoder (Bool.and_eq_true_iff.1 h).2

/-! ### From the outcome to its cause -/

/-- The outcomes a step from `s` can report, each failure with the answer that causes it (R164). -/
inductive Reports (s : State) : HostOutcome → Prop
  | ok (v : Word) : Reports s ⟨some v, stOk, 0⟩
  | underflow (hr : s.nextIn.rst = false) (h : s.GetsEmpty) : Reports s ⟨none, stUnderflow, 0⟩
  | sinkXErr (hr : s.nextIn.rst = false) (h : s.PutsXErr) : Reports s ⟨none, stExt, s.nextIn.snkCode⟩
  | sourceXErr (hr : s.nextIn.rst = false) (c : Byte) (h : s.GetsXErr c) : Reports s ⟨none, stExt, c⟩

theorem StepCase.silent_or_reports {s t : State} (hc : StepCase s t) :
    t.outcomes = s.outcomes ∨ ∃ o, Reports s o ∧ t.outcomes = s.outcomes ++ [o] := by
  cases hc with
  | reset | idle | encode | decode | stall | encMore | decMore => exact .inl rfl
  | pure | encLast | decLast => exact .inr ⟨_, .ok _, rfl⟩
  | encFail hr hb ho hk hx => exact .inr ⟨_, .sinkXErr hr ⟨snkValid_of_encoder hb ho, hk, hx⟩, rfl⟩
  | decFail hr hb ho c x hst =>
    have hq : s.srcReq = true := srcReq_of_decoder hb ho
    obtain ⟨rfl, rfl, hempty⟩ | ⟨rfl, hfail⟩ := hst
    · exact .inr ⟨_, .underflow hr ⟨hq, hempty.symm⟩, rfl⟩
    · exact .inr ⟨_, .sourceXErr hr x ⟨hq, hfail⟩, rfl⟩

section
variable {s t : State} {o : HostOutcome}

theorem reports_of_step (hst : step s = .next t) (hout : t.outcomes = s.outcomes ++ [o]) : Reports s o := by
  obtain hsilent | ⟨o', ho', hout'⟩ := (step_next_cases hst).silent_or_reports
  · exact absurd (hsilent.symm.trans hout) (by simp)
  · exact List.singleton_inj.1 (List.append_cancel_left (hout'.symm.trans hout)) ▸ ho'

/-! ### From the cause to the outcome -/

/-- The step is a function: whatever case applies says which outcome is reported. -/
theorem StepCase.reported_eq {u : State} {o' : HostOutcome} (hc : StepCase s u)
    (hu : u.outcomes = s.outcomes ++ [o']) (hst : step s = .next t) (hout : t.outcomes = s.outcomes ++ [o]) : o = o' := by
  have htu : t = u := Host.Outcome.next.inj (hst.symm.trans hc.step_eq)
  exact List.singleton_inj.1 (List.append_cancel_left (hout.symm.trans (htu ▸ hu)))

variable (hst : step s = .next t) (hout : t.outcomes = s.outcomes ++ [o]) (hr : s.nextIn.rst = false)
include hst hout hr

theorem State.GetsEmpty.reported (h : s.GetsEmpty) : o = ⟨none, stUnderflow, 0⟩ := by
  obtain ⟨hq, hempty⟩ := h
  obtain ⟨hb, ho⟩ := Bool.and_eq_true_iff.1 hq
  exact (StepCase.decFail hr hb ho stUnderflow 0 (.inl ⟨rfl, rfl, hempty.symm⟩)).reported_eq rfl hst hout

theorem State.PutsXErr.reported (h : s.PutsXErr) : o = ⟨none, stExt, s.nextIn.snkCode⟩ := by
  obtain ⟨hv, hk, hx⟩ := h
  obtain ⟨hb, ho⟩ := Bool.and_eq_true_iff.1 hv
  exact (StepCase.encFail hr hb ho hk hx).reported_eq rfl hst hout

theorem State.GetsXErr.reported {c : Byte} (h : s.GetsXErr c) : o = ⟨none, stExt, c⟩ := by
  obtain ⟨hq, hfail⟩ := h
  obtain ⟨hb, ho⟩ := Bool.and_eq_true_iff.1 hq
  exact (StepCase.decFail hr hb ho stExt c (.inr ⟨rfl, hfail⟩)).reported_eq rfl hst hout

end

/-! ### The status and code of a reported outcome -/

section
variable {s : State} {o : HostOutcome} (h : Reports s o)
include h

theorem Reports.st_range : o.st = stOk ∨ o.st = stUnderflow ∨ o.st = stExt := by
  cases h with
  | ok => exact .inl rfl
  | underflow => exact .inr (.inl rfl)
  | sinkXErr | sourceXErr => exact .inr (.inr rfl)

theorem Reports.getsEmpty_of_underflow (hst : o.st = stUnderflow) : s.nextIn.rst = false ∧ s.GetsEmpty := by
  cases h with
  | underflow hr hempty => exact ⟨hr, hempty⟩
  | ok | sinkXErr | sourceXErr => simp [stOk, stUnderflow, stExt] at hst

/-- The code is the one the failing stream gave (R163). -/
theorem Reports.xerr_of_ext (hst : o.st = stExt) :
    s.nextIn.rst = false ∧ (s.PutsXErr ∧ o.xcode = s.nextIn.snkCode ∨ s.GetsXErr o.xcode) := by
  cases h with
  | sinkXErr hr hputs => exact ⟨hr, .inl ⟨hputs, rfl⟩⟩
  | sourceXErr hr c hgets => exact ⟨hr, .inr hgets⟩
  | ok | underflow => simp [stOk, stUnderflow, stExt] at hst

theorem Reports.xcode_of_not_ext (hst : o.st ≠ stExt) : o.xcode = 0 := by
  cases h with
  | ok | underflow => rfl
  | sinkXErr | sourceXErr => exact absurd rfl hst

end

/-- Settles O47: a reported failure has its cause among the answers at the ports, and each of these answers is the step's
only case, so it has its failure. -/
theorem everyFailureHasItsCause : Obligations.EveryFailureHasItsCause := by
  intro s t o hst hout
  have hrep : Reports s o := reports_of_step hst hout
  refine ⟨hrep.st_range, ⟨hrep.getsEmpty_of_underflow, fun ⟨hr, hempty⟩ => ?_⟩, ⟨fun hext => ?_, ?_⟩,
    fun hext hv => ?_, fun hext hq => ?_, hrep.xcode_of_not_ext⟩
  · exact congrArg HostOutcome.st (State.GetsEmpty.reported hst hout hr hempty)
  · obtain ⟨hr, ⟨hputs, -⟩ | ⟨hq, hfail⟩⟩ := hrep.xerr_of_ext hext
    · exact ⟨hr, .inl hputs⟩
    · exact ⟨hr, .inr ⟨hq, _, hfail⟩⟩
  · rintro ⟨hr, hputs | ⟨hq, c, hfail⟩⟩
    · exact congrArg HostOutcome.st (State.PutsXErr.reported hst hout hr hputs)
    · exact congrArg HostOutcome.st (State.GetsXErr.reported hst hout hr ⟨hq, hfail⟩)
  · obtain ⟨-, ⟨-, hcode⟩ | ⟨hq, -⟩⟩ := hrep.xerr_of_ext hext
    · exact hcode
    · exact absurd hv (by simp [not_snkValid_of_srcReq hq])
  · obtain ⟨-, ⟨⟨hv, -⟩, -⟩ | ⟨-, hfail⟩⟩ := hrep.xerr_of_ext hext
    · exact absurd hv (by simp [not_snkValid_of_srcReq hq])
    · exact hfail

end Sys2Proof.Machine
end

section
/-! The reset and hazards family (70_reset_and_hazards.md): a pure command's word held on the command port is executed once
per idle step (R193, R195); and the written words of 95_test_vectors.md. -/

namespace Sys2Proof.Machine

/-! ### A word held on the command port (R193) -/

theorem decode_encode (i : Instr) : decode (encode i) = i :=
  (decode_mkCmd _ _).trans (decodeFields_opcode_arg i)

section
variable {s : State} {i : Instr} {v : Word} {es : List EdgeIn}

/-- An offer edge brings nothing but the command (log 2): an idle core sees its own state, the edge taken off. -/
theorem State.seen_of_offer {w : Cmd} (hin : s.inputs = offerEdge w :: es) : s.seen = { s with inputs := es } := by
  rw [State.seen, State.nextIn_cons s _ es hin]
  simp [State.present, offerEdge, hin]

/-- An idle core offered a pure command completes it in one step (R74). -/
theorem step_offered_pure (hb : s.busy = false) (hi : pureResult i = some v)
    (hin : s.inputs = offerEdge (encode i) :: es) :
    step s = .next ((({ s with inputs := es } : State).accept i.opcode).complete v) := by
  have hnext : s.nextIn = offerEdge (encode i) := State.nextIn_cons s _ es hin
  have hcmd : s.nextIn.command = i := by rw [hnext, command_offerEdge, decode_encode]
  rw [step_accept s (by rw [hnext]; rfl) hb (by rw [hnext]; rfl), hcmd, State.seen_of_offer hin]
  exact exec_pure i v _ hi hb

end

theorem run_one {s t : State} (h : step s = .next t) : run 1 s = .next t := run_succ h 0

/-- Settles O16: by induction on `k`, taking off the last offer, whose step leaves the registers the statement names. -/
theorem heldPureCommandRepeats : Obligations.HeldPureCommandRepeats := by
  intro s i v k rest hb hi hin
  induction k generalizing rest with
  | zero => exact ⟨s, rfl, hb, rfl, hin, (List.append_nil _).symm, rfl, rfl, fun h => absurd h (by decide)⟩
  | succ k ih =>
    rw [List.replicate_succ', List.append_assoc] at hin
    obtain ⟨t, hrun, hidle, hpc, hin', hout, hsnk, hsrc, -⟩ := ih (offerEdge (encode i) :: rest) hin
    have hlast : run (k + 1) s = _ := (run_add hrun 1).trans (run_one (step_offered_pure hidle hi hin'))
    refine ⟨_, hlast, rfl, congrArg (· + 1) hpc, rfl, ?_, hsnk, hsrc, fun _ => ⟨rfl, rfl, rfl, rfl⟩⟩
    rw [List.replicate_succ', ← List.append_assoc, ← hout]
    rfl

/-! ### The written words (95_test_vectors.md) -/

/-- Settles O3: each word is a constant, and its two fields are read off it. -/
theorem writtenWordsDecode : Obligations.WrittenWordsDecode := by
  unfold Obligations.WrittenWordsDecode
  decide

end Sys2Proof.Machine
end
